-- ==== Sys2Proof/Word.lean ====
section
/-! DEFINITION. The widths of this hardware's words and fields (rules R7, R8, R10, R54). -/

namespace Sys2Proof

/-- A command word or a response word: 16 bits, bit 15 most significant (R46, R54, R61). -/
abbrev Word := BitVec 16

/-- A channel period: `u11`, range 0..2047 (R16). -/
abbrev Period := BitVec 11

/-- The operation select of one Divider port, format DP2: bit 1 the reload strobe, bit 0 the clock
strobe (R66). -/
abbrev Select := BitVec 2

end Sys2Proof
end

