-- ==== Sys2Proof/Config.lean ====
section
/-! DEFINITION. What is fixed for this hardware: the two channels, their negate polarity, the numeric
parameters of rule R7, and the one parameter the spec leaves open. -/

namespace Sys2Proof

/-- The two pulse channels (`NCH` = 2): index 0 is the "first pulse channel", index 1 the "second"
(R7, R15, R56). -/
inductive Chan where
  | ch0
  | ch1
  deriving DecidableEq, Repr

/-- The index of a channel, and the value of the channel bit of a word (R41, R56). -/
def Chan.index : Chan → Nat
  | .ch0 => 0
  | .ch1 => 1

/-- The negate polarity of a channel (R17). -/
inductive Polarity where
  | onesComplement
  | twosComplement
  deriving DecidableEq, Repr

/-- `POL[c]`: a constant of the channel, "fixed at construction"; no command writes it and reset does not
change it (R7, R17). -/
def Config.negatePolarity : Chan → Polarity
  | .ch0 => .onesComplement
  | .ch1 => .twosComplement

/-- `PERIOD_MAX`: a target period above this mutes (R7, R84). -/
abbrev Config.periodMax : Nat := 2047

/-- `PERIOD_MIN_AUDIBLE`: a current period below this mutes (R7, R84). -/
abbrev Config.periodMinAudible : Nat := 8

/-- `DECAY_MAX`: the value loaded into `decayLevelCounter` on a start and on a loop (R7, R114). -/
abbrev Config.decayMax : BitVec 4 := 15

/-- `RESET_CH_PERIOD`, the channel period after reset: OPEN in the spec, any value 0..2047 (R7, R38,
decision D13). It has no body, so that a proof holds whatever the value is (DESIGN
CHOICE, log entry 2). -/
opaque Config.resetChPeriod : Period

end Sys2Proof
end

