-- ==== Sys2Proof/Syntax.lean ====
section
/-! DEFINITION. The instructions (one constructor per row of spec/opcode_table.json), what can arrive at the
block's inputs, and the assembler-level commands of rules R68 and R69. -/

namespace Sys2Proof

/-- The four Divider instances, two per channel (R74). Each has a DP2 port of its own (R66). -/
inductive DividerId where
  | sweep (c : Chan)
  | envelope (c : Chan)
  deriving DecidableEq, Repr

/-- The mnemonics of spec/opcode_table.json. -/
inductive Mnemonic where
  | swpTick | swpWr | swpMute | swpTgt | swpChg | perWr | perRd
  | envTick | envWr | envStart | envVol | rst | divClk | divRld
  deriving DecidableEq, Repr

/-- A decoded command or micro-operation. Every operand is exactly as wide as the range the spec gives it
(R62), so that every term of this type has in-range operands: it is the `Command` of rule R137, with the two
DP2 micro-operations, which name the Divider instance whose port they arrive at (R75: "the instance it is
applied to"; DESIGN CHOICE, log entry 4). An operand outside its range cannot be written (R141; log entry 11). -/
inductive Instr where
  /-- `SWP.TICK c`: `onHalfFrameClock` (R100). -/
  | swpTick (c : Chan)
  /-- `SWP.WR c, E, P, N, S`: the sweep's `onRegisterWrite` (R105). -/
  | swpWr (c : Chan) (enabled : Bool) (dividerPeriod : BitVec 3) (negateFlag : Bool) (shiftCount : BitVec 3)
  /-- `SWP.MUTE c`: `isMuted` (R89). -/
  | swpMute (c : Chan)
  /-- `SWP.TGT c`: `computeTargetPeriod` (R88). -/
  | swpTgt (c : Chan)
  /-- `SWP.CHG c`: `computeChangeAmount` (R87). -/
  | swpChg (c : Chan)
  /-- `PER.WR c, T` (R129). -/
  | perWr (c : Chan) (period : Period)
  /-- `PER.RD c` (R130). -/
  | perRd (c : Chan)
  /-- `ENV.TICK c`: `onQuarterFrameClock` (R114). -/
  | envTick (c : Chan)
  /-- `ENV.WR c, L, C, V` (R116). -/
  | envWr (c : Chan) (loopFlag constantVolumeFlag : Bool) (V : BitVec 4)
  /-- `ENV.START c`: `setStartFlag` (R117). -/
  | envStart (c : Chan)
  /-- `ENV.VOL c`: `getVolume` (R118). -/
  | envVol (c : Chan)
  /-- `RST` (R131). -/
  | rst
  /-- `DIV.CLK` at one Divider instance (R75). -/
  | divClk (d : DividerId)
  /-- `DIV.RLD` at one Divider instance (R76). -/
  | divRld (d : DividerId)
  deriving DecidableEq, Repr

/-- The row an instruction belongs to. -/
def Instr.mnemonic : Instr → Mnemonic
  | .swpTick _ => .swpTick
  | .swpWr _ _ _ _ _ => .swpWr
  | .swpMute _ => .swpMute
  | .swpTgt _ => .swpTgt
  | .swpChg _ => .swpChg
  | .perWr _ _ => .perWr
  | .perRd _ => .perRd
  | .envTick _ => .envTick
  | .envWr _ _ _ _ => .envWr
  | .envStart _ => .envStart
  | .envVol _ => .envVol
  | .rst => .rst
  | .divClk _ => .divClk
  | .divRld _ => .divRld

/-- One thing arriving at the block from outside, still as bits: a CMD16 command word (R54), a select at the
DP2 port of one Divider (R66), or the "reset/power-on signal (external)" (R131; log entry 8). -/
inductive Input where
  | cmd (w : Word)
  | dp2 (d : DividerId) (sel : Select)
  | resetSignal
  deriving DecidableEq, Repr

/-- A command as an assembler line gives it: a mnemonic and unbounded operands, channel first (R68). -/
structure AsmCmd where
  mnemonic : Mnemonic
  operands : List Nat
  deriving DecidableEq, Repr

/-- The pseudo-instructions of rule R69. -/
inductive Pseudo where
  | hft
  | qft
  | hqft
  deriving DecidableEq, Repr

/-- One line of assembler text: nothing (or a comment), a command, or a pseudo-instruction (R68, R69). -/
inductive AsmLine where
  | blank
  | cmd (a : AsmCmd)
  | pseudo (p : Pseudo)
  deriving DecidableEq, Repr

end Sys2Proof
end

