-- ==== Sys2Proof/Machine/State.lean ====
section
/-! DEFINITION. The state of the block (rules R15 to R29), the two things the model keeps beside it for its
surroundings (the inputs still to come and the answer of the last operation), the ways a step can stop, and the
state after reset (R38). -/

namespace Sys2Proof.Machine

/-- A Divider of width `W` has one register, `counter : uW`; its `period` is an input wired to the owner's
field, not storage (R30, R73). -/
structure Divider (W : Nat) where
  counter : BitVec W
  deriving DecidableEq, Repr

/-- The SweepUnit's fields (R18 to R23). `negatePolarity` is a constant of the channel, not a field
(R17: `Config.negatePolarity`). -/
structure Sweep where
  enabled : Bool
  shiftCount : BitVec 3
  negateFlag : Bool
  dividerPeriod : BitVec 3
  div : Divider 3
  reloadFlag : Bool
  deriving DecidableEq, Repr

/-- The EnvelopeGenerator's fields (R24 to R29). `V` is both `constantVolumeValue` and the envelope divider's
period, stored once (R25). -/
structure Envelope where
  startFlag : Bool
  V : BitVec 4
  div : Divider 4
  decayLevelCounter : BitVec 4
  loopFlag : Bool
  constantVolumeFlag : Bool
  deriving DecidableEq, Repr

/-- One channel record: the channel period register, a SweepUnit and an EnvelopeGenerator (R15, R16). -/
structure Channel where
  period : Period
  swp : Sweep
  env : Envelope
  deriving DecidableEq, Repr

/-- What an operation answers: nothing, one 16-bit response word (R61), or the `fired` output of a Divider driven
at its DP2 port (R73, R75). -/
inductive Output where
  | nothing
  | response (w : Word)
  | fired (b : Bool)
  deriving DecidableEq, Repr

/-- The whole state. `ch0` and `ch1` are the block's own, `S.ch[0]` and `S.ch[1]` (R15). `inputs` and `out` are
the MODEL's fields for its surroundings (DESIGN CHOICE, log entry 1): `inputs` is what the outside agents send, first
to come first (R33, R48: the block fetches nothing and the agents decide the order), and `out` is what the last
operation answered (R61). No operation reads `out`. -/
structure State where
  ch0 : Channel
  ch1 : Channel
  inputs : List Input
  out : Output
  deriving DecidableEq, Repr

/-- The block raises no exception and reports no error, so a step has no fault to end in (R139, R140: "A model
needs no fault constructor for the block itself"). The type is empty: no instruction faults. -/
inductive Fault where
  deriving DecidableEq, Repr

/-- Why a step has no meaning. -/
inductive Refusal where
  /-- Raised by an arm of `exec` that has no meaning yet, with the row's mnemonic: safe. No arm raises it now. -/
  | notModelled (mnemonic : String)
  /-- Raised by `step` on a CMD16 word that matches no row (R64, R142: "A model must **refuse** it"): safe, nothing
  can be proved of what follows it. -/
  | reservedWord (w : Word)
  /-- Raised by `step` on the DP2 select `0b11`, both strobes at once (R66: "a model that exposes the port refuses
  it"): safe. -/
  | reservedSelect (d : DividerId)
  deriving DecidableEq, Repr

/-- A SweepUnit after reset (R38). -/
def Sweep.reset : Sweep where
  enabled := false
  shiftCount := 0
  negateFlag := false
  dividerPeriod := 0
  div := ⟨0⟩
  reloadFlag := false

/-- An EnvelopeGenerator after reset (R38). -/
def Envelope.reset : Envelope where
  startFlag := false
  V := 0
  div := ⟨0⟩
  decayLevelCounter := 0
  loopFlag := false
  constantVolumeFlag := false

/-- A channel after reset: the period is the open parameter `RESET_CH_PERIOD` (R38, R131). -/
def Channel.reset : Channel where
  period := Config.resetChPeriod
  swp := Sweep.reset
  env := Envelope.reset

/-- The machine right after reset: both channels as rule R38 says, nothing sent yet, nothing answered
yet (log entries 1 and 3). -/
def State.reset : State where
  ch0 := Channel.reset
  ch1 := Channel.reset
  inputs := []
  out := .nothing

end Sys2Proof.Machine
end

