-- ==== Sys2Proof/Machine/Operands.lean ====
section
/-! DEFINITION. The one addressing mode, "named field of channel `c`" (R41, R135): reading and replacing the
parts of a channel, and the packing of results into response words (R61). -/

namespace Sys2Proof.Machine

/-- `S.ch[c]` (R11, R15). -/
def State.ch (s : State) : Chan → Channel
  | .ch0 => s.ch0
  | .ch1 => s.ch1

/-- Replace `S.ch[c]`. -/
def State.setCh (s : State) (c : Chan) (k : Channel) : State :=
  match c with
  | .ch0 => { s with ch0 := k }
  | .ch1 => { s with ch1 := k }

/-- `S.ch[c].period <- p`. -/
def State.setPeriod (s : State) (c : Chan) (p : Period) : State :=
  s.setCh c { s.ch c with period := p }

/-- Replace `S.ch[c].swp`. -/
def State.setSwp (s : State) (c : Chan) (u : Sweep) : State :=
  s.setCh c { s.ch c with swp := u }

/-- Replace `S.ch[c].env`. -/
def State.setEnv (s : State) (c : Chan) (g : Envelope) : State :=
  s.setCh c { s.ch c with env := g }

/-- `zext_16` (R10). -/
def zext16 (n : Nat) : Word := BitVec.ofNat 16 n

/-- `sext_16` (R10). -/
def sext16 (i : Int) : Word := BitVec.ofInt 16 i

/-- The response of `SWP.TICK`: `r[15:12] = 0`, `r[11] = muted`, `r[10:0] = newPeriod` (R61). -/
def tickResponse (muted : Bool) (newPeriod : Period) : Word := 0#4 ++ BitVec.ofBool muted ++ newPeriod

/-- What the operation answers stands in `out`. -/
def State.answer (s : State) (o : Output) : State := { s with out := o }

end Sys2Proof.Machine
end

