-- ==== Sys2Proof/Machine/Flags.lean ====
section
/-! DEFINITION. The combinational results: change amount, target period and mute flag (R82 to R84), the volume
(R118), and the block's three outputs (R133). The block has no condition codes (R34); none of these is stored
(R37, R86). Arithmetic is on mathematical integers: nothing wraps (R9, R90). -/

namespace Sys2Proof.Machine

/-- `raw = currentPeriod >> shiftCount`, a floor division by a power of two (R82, R90). -/
def rawChange (u : Sweep) (currentPeriod : Period) : Nat := currentPeriod.toNat >>> u.shiftCount.toNat

/-- `computeChangeAmount(currentPeriod)` of a SweepUnit whose polarity is `pol` (R82). -/
def computeChangeAmount (pol : Polarity) (u : Sweep) (currentPeriod : Period) : Int :=
  let raw : Int := rawChange u currentPeriod
  if u.negateFlag then
    match pol with
    | .onesComplement => -raw - 1
    | .twosComplement => -raw
  else raw

/-- `computeTargetPeriod(currentPeriod)`: clamped at zero from below, not bounded above (R83). -/
def computeTargetPeriod (pol : Polarity) (u : Sweep) (currentPeriod : Period) : Int :=
  max 0 (currentPeriod.toNat + computeChangeAmount pol u currentPeriod)

/-- `isMuted(currentPeriod)`; both comparisons strict (R84). -/
def isMuted (pol : Polarity) (u : Sweep) (currentPeriod : Period) : Bool :=
  currentPeriod.toNat < Config.periodMinAudible || computeTargetPeriod pol u currentPeriod > Config.periodMax

/-- `getVolume()` (R118). -/
def getVolume (g : Envelope) : BitVec 4 := if g.constantVolumeFlag then g.V else g.decayLevelCounter

/-- The change amount of channel `c` as it stands. -/
def State.changeAmount (s : State) (c : Chan) : Int :=
  computeChangeAmount (Config.negatePolarity c) (s.ch c).swp (s.ch c).period

/-- The target period of channel `c` as it stands, "evaluated regardless of whether it is ever applied" (R85). -/
def State.targetPeriod (s : State) (c : Chan) : Int :=
  computeTargetPeriod (Config.negatePolarity c) (s.ch c).swp (s.ch c).period

/-- Output: the mute flag of channel `c`, a pure function of the current state (R86, R133). -/
def State.muted (s : State) (c : Chan) : Bool :=
  isMuted (Config.negatePolarity c) (s.ch c).swp (s.ch c).period

/-- Output: the current channel period (R133). -/
def State.period (s : State) (c : Chan) : Period := (s.ch c).period

/-- Output: the current volume of channel `c`; it ignores the mute flag (R118, R133). -/
def State.volume (s : State) (c : Chan) : BitVec 4 := getVolume (s.ch c).env

end Sys2Proof.Machine
end

