-- ==== Sys2Proof/Machine/Ops.lean ====
section
/-! DEFINITION. The function forms of the four components, under the source document's own names (R12): the
Divider's two micro-operations, the half-frame and quarter-frame clocks, the register writes and the start.
The block takes no exception and returns from none, so there is no such operation here (R139, R147, R148). -/

namespace Sys2Proof.Machine

/-! ### Divider -/

/-- `clock()`: reload at zero and fire, else decrement (R75). The reload uses the value of the `period` input
at this moment. -/
def Divider.clock {W : Nat} (d : Divider W) (period : BitVec W) : Divider W × Bool :=
  if d.counter = 0#W then (⟨period⟩, true) else (⟨d.counter - 1#W⟩, false)

/-- `forceReload()`: reload whatever the counter holds; it produces no `fired` (R76). -/
def Divider.forceReload {W : Nat} (_ : Divider W) (period : BitVec W) : Divider W := ⟨period⟩

/-! ### SweepUnit -/

/-- Step 2's gate: may this half-frame tick replace the period? It reads the pre-tick counter, and
`reloadFlag` is no part of it (R99 to R101). -/
def Sweep.updates (pol : Polarity) (u : Sweep) (currentPeriod : Period) : Bool :=
  u.div.counter == 0#3 && u.enabled && u.shiftCount != 0#3 && !isMuted pol u currentPeriod

/-- `newPeriod` of step 2. The gate is true only where the target fits in 11 bits (R104). -/
def Sweep.newPeriod (pol : Polarity) (u : Sweep) (currentPeriod : Period) : Period :=
  if u.updates pol currentPeriod then
    BitVec.ofNat 11 (computeTargetPeriod pol u currentPeriod).toNat
  else currentPeriod

/-- Step 3, divider maintenance, performed on every tick whatever step 2 did (R100, R102). -/
def Sweep.maintainDivider (u : Sweep) : Sweep :=
  if u.div.counter = 0#3 ∨ u.reloadFlag = true then
    { u with div := u.div.forceReload u.dividerPeriod, reloadFlag := false }
  else
    { u with div := (u.div.clock u.dividerPeriod).1 }

/-- `onHalfFrameClock(currentPeriod) -> { newPeriod, muted }`, with the unit after the tick: `muted` is that of
the period before the tick, and all three read the pre-tick unit (R99, R100, R103). -/
structure HalfFrame where
  unit : Sweep
  newPeriod : Period
  muted : Bool
  deriving DecidableEq, Repr

/-- See `HalfFrame` (R100). -/
def Sweep.onHalfFrameClock (pol : Polarity) (u : Sweep) (currentPeriod : Period) : HalfFrame where
  unit := u.maintainDivider
  newPeriod := u.newPeriod pol currentPeriod
  muted := isMuted pol u currentPeriod

/-- `onRegisterWrite`: replaces the four fields and sets `reloadFlag`; the counter stays (R105). -/
def Sweep.onRegisterWrite (u : Sweep) (enabled : Bool) (dividerPeriod : BitVec 3) (negateFlag : Bool)
    (shiftCount : BitVec 3) : Sweep :=
  { u with enabled, dividerPeriod, negateFlag, shiftCount, reloadFlag := true }

/-! ### EnvelopeGenerator -/

/-- The decay counter after a fire: decremented above 0, at 0 reloaded with 15 if looping (R114). -/
def Envelope.nextDecay (g : Envelope) : BitVec 4 :=
  if g.decayLevelCounter ≠ 0#4 then g.decayLevelCounter - 1#4
  else if g.loopFlag then Config.decayMax
  else g.decayLevelCounter

/-- `onQuarterFrameClock()`: a pending start restarts and is consumed, and the divider is then reloaded but not
clocked; else the divider is clocked and a fire steps the decay counter (R114). -/
def Envelope.onQuarterFrameClock (g : Envelope) : Envelope :=
  if g.startFlag then
    { g with
      startFlag := false
      decayLevelCounter := Config.decayMax
      div := g.div.forceReload g.V }
  else
    let r := g.div.clock g.V
    { g with div := r.1, decayLevelCounter := if r.2 then g.nextDecay else g.decayLevelCounter }

/-- The envelope's configuration write: the three fields and nothing else (R116). -/
def Envelope.configure (g : Envelope) (loopFlag constantVolumeFlag : Bool) (V : BitVec 4) : Envelope :=
  { g with loopFlag, constantVolumeFlag, V }

/-- `setStartFlag()` (R117). -/
def Envelope.setStartFlag (g : Envelope) : Envelope := { g with startFlag := true }

end Sys2Proof.Machine
end

