-- ==== Sys2Proof/Machine/ChannelAndSystem.lean ====
section
/-! DEFINITION. The commands that belong to no single unit: `PER.WR`, `PER.RD` and `RST` (R129 to R131). -/

namespace Sys2Proof.Machine

/-- `PER.WR c, T`: all 11 bits, and nothing of the SweepUnit (R129). -/
def execPerWr (c : Chan) (period : Period) (s : State) : Host.Outcome State Fault Refusal :=
  .next ((s.setPeriod c period).answer .nothing)

/-- `PER.RD c` (R130). -/
def execPerRd (c : Chan) (s : State) : Host.Outcome State Fault Refusal :=
  .next (s.answer (.response (zext16 (s.period c).toNat)))

/-- `RST`: every field of both channels; what the outside agents have still to send is not the block's (R131). -/
def execRst (s : State) : Host.Outcome State Fault Refusal :=
  .next (((s.setCh .ch0 Channel.reset).setCh .ch1 Channel.reset).answer .nothing)

end Sys2Proof.Machine
end

