-- ==== Sys2Proof/Machine/Divider.lean ====
section
/-! DEFINITION. `DIV.CLK` and `DIV.RLD` at the port of one Divider instance (R66, R73 to R76). The `period` input
is wired to the owner's field: `dividerPeriod` for a sweep divider, `V` for an envelope divider (R30, R74). -/

namespace Sys2Proof.Machine

/-- `DIV.CLK` (R75). The answer is the instance's `fired` output. -/
def execDivClk (d : DividerId) (s : State) : Host.Outcome State Fault Refusal :=
  match d with
  | .sweep c =>
    let u := (s.ch c).swp
    let r := u.div.clock u.dividerPeriod
    .next ((s.setSwp c { u with div := r.1 }).answer (.fired r.2))
  | .envelope c =>
    let g := (s.ch c).env
    let r := g.div.clock g.V
    .next ((s.setEnv c { g with div := r.1 }).answer (.fired r.2))

/-- `DIV.RLD` (R76). `fired` is not produced: of "false or nothing" the answer is nothing (DESIGN CHOICE, log
entry 7). -/
def execDivRld (d : DividerId) (s : State) : Host.Outcome State Fault Refusal :=
  match d with
  | .sweep c =>
    let u := (s.ch c).swp
    .next ((s.setSwp c { u with div := u.div.forceReload u.dividerPeriod }).answer .nothing)
  | .envelope c =>
    let g := (s.ch c).env
    .next ((s.setEnv c { g with div := g.div.forceReload g.V }).answer .nothing)

end Sys2Proof.Machine
end

