-- ==== Sys2Proof/Machine/Envelope.lean ====
section
/-! DEFINITION. The EnvelopeGenerator's commands `ENV.TICK`, `ENV.WR`, `ENV.START` and `ENV.VOL`
(R114, R116 to R118). -/

namespace Sys2Proof.Machine

/-- `ENV.TICK c` (R114). -/
def execEnvTick (c : Chan) (s : State) : Host.Outcome State Fault Refusal :=
  .next ((s.setEnv c (s.ch c).env.onQuarterFrameClock).answer .nothing)

/-- `ENV.WR c, L, C, V` (R116). -/
def execEnvWr (c : Chan) (loopFlag constantVolumeFlag : Bool) (V : BitVec 4) (s : State) :
    Host.Outcome State Fault Refusal :=
  .next ((s.setEnv c ((s.ch c).env.configure loopFlag constantVolumeFlag V)).answer .nothing)

/-- `ENV.START c` (R117). -/
def execEnvStart (c : Chan) (s : State) : Host.Outcome State Fault Refusal :=
  .next ((s.setEnv c (s.ch c).env.setStartFlag).answer .nothing)

/-- `ENV.VOL c` (R118). -/
def execEnvVol (c : Chan) (s : State) : Host.Outcome State Fault Refusal :=
  .next (s.answer (.response (zext16 (s.volume c).toNat)))

end Sys2Proof.Machine
end

