-- ==== Sys2Proof/Machine/Sweep.lean ====
section
/-! DEFINITION. The SweepUnit's commands `SWP.TICK` and `SWP.WR` (R100, R105). -/

namespace Sys2Proof.Machine

/-- `SWP.TICK c`: `onHalfFrameClock` of the channel's unit on the channel's period; `newPeriod` is written back
(R100). -/
def execSwpTick (c : Chan) (s : State) : Host.Outcome State Fault Refusal :=
  let r := (s.ch c).swp.onHalfFrameClock (Config.negatePolarity c) (s.ch c).period
  .next (((s.setSwp c r.unit).setPeriod c r.newPeriod).answer (.response (tickResponse r.muted r.newPeriod)))

/-- `SWP.WR c, E, P, N, S` (R105). -/
def execSwpWr (c : Chan) (enabled : Bool) (dividerPeriod : BitVec 3) (negateFlag : Bool) (shiftCount : BitVec 3)
    (s : State) : Host.Outcome State Fault Refusal :=
  .next ((s.setSwp c
    ((s.ch c).swp.onRegisterWrite enabled dividerPeriod negateFlag shiftCount)).answer .nothing)

end Sys2Proof.Machine
end

