-- ==== Sys2Proof/Machine/TargetPeriod.lean ====
section
/-! DEFINITION. The TargetPeriodCalculator's queries `SWP.CHG`, `SWP.TGT` and `SWP.MUTE` (R87 to R89): pure
reads, which write nothing of the block's state (R45). -/

namespace Sys2Proof.Machine

/-- `SWP.CHG c` (R87). -/
def execSwpChg (c : Chan) (s : State) : Host.Outcome State Fault Refusal :=
  .next (s.answer (.response (sext16 (s.changeAmount c))))

/-- `SWP.TGT c` (R88). The target is never negative (R83), so `toNat` loses nothing. -/
def execSwpTgt (c : Chan) (s : State) : Host.Outcome State Fault Refusal :=
  .next (s.answer (.response (zext16 (s.targetPeriod c).toNat)))

/-- `SWP.MUTE c` (R89). -/
def execSwpMute (c : Chan) (s : State) : Host.Outcome State Fault Refusal :=
  .next (s.answer (.response (zext16 (s.muted c).toNat)))

end Sys2Proof.Machine
end

