-- ==== Sys2Proof/Machine/Dispatch.lean ====
section
/-! DEFINITION. The transition function by cases on the decoded command (R137). -/

namespace Sys2Proof.Machine

def exec (i : Instr) (s : State) : Host.Outcome State Fault Refusal :=
  match i with
  | .swpTick c => Sys2Proof.Machine.execSwpTick c s
  | .swpWr c e p n sh => Sys2Proof.Machine.execSwpWr c e p n sh s
  | .swpMute c => Sys2Proof.Machine.execSwpMute c s
  | .swpTgt c => Sys2Proof.Machine.execSwpTgt c s
  | .swpChg c => Sys2Proof.Machine.execSwpChg c s
  | .perWr c t => Sys2Proof.Machine.execPerWr c t s
  | .perRd c => Sys2Proof.Machine.execPerRd c s
  | .envTick c => Sys2Proof.Machine.execEnvTick c s
  | .envWr c l cv v => Sys2Proof.Machine.execEnvWr c l cv v s
  | .envStart c => Sys2Proof.Machine.execEnvStart c s
  | .envVol c => Sys2Proof.Machine.execEnvVol c s
  | .rst => Sys2Proof.Machine.execRst s
  | .divClk d => Sys2Proof.Machine.execDivClk d s
  | .divRld d => Sys2Proof.Machine.execDivRld d s

end Sys2Proof.Machine
end

