-- ==== Sys2Proof/WellFormed.lean ====
section
/-! DEFINITION. Which terms and words the spec gives a meaning. An `Instr` needs no check: its operands are
exactly as wide as their ranges (R62). What can be ill formed is an assembler command with unbounded operands
(R68), a command word (R57, R64) and a DP2 select (R66). -/

namespace Sys2Proof

/-- The operand list fits the mnemonic: the right number of operands, each in the range of rule R68 ("An
operand outside its range is an assembly error, not a command"). -/
def AsmCmd.wf (a : AsmCmd) : Bool :=
  match a.mnemonic, a.operands with
  | .swpTick, [c] => c < 2
  | .swpWr, [c, e, p, n, s] => c < 2 && e < 2 && p < 8 && n < 2 && s < 8
  | .swpMute, [c] => c < 2
  | .swpTgt, [c] => c < 2
  | .swpChg, [c] => c < 2
  | .perWr, [c, t] => c < 2 && t < 2048
  | .perRd, [c] => c < 2
  | .envTick, [c] => c < 2
  | .envWr, [c, l, cv, v] => c < 2 && l < 2 && cv < 2 && v < 16
  | .envStart, [c] => c < 2
  | .envVol, [c] => c < 2
  | .rst, [] => true
  | .divClk, [] => true
  | .divRld, [] => true
  | _, _ => false

/-- `opc = w[15:12]` (R54). -/
def wordOpc (w : Word) : Nat := (w.extractLsb' 12 4).toNat

/-- `pay = w[10:0]` (R54). -/
def wordPay (w : Word) : BitVec 11 := w.extractLsb' 0 11

/-- The word has a meaning: its opcode is defined and its must-be-zero bits are zero (the table of R57 and the
list of R64, opcode by opcode). Every other word is reserved. -/
def definedWord (w : Word) : Bool :=
  match wordOpc w with
  | 0x1 | 0x3 | 0x4 | 0x5 | 0x7 | 0x8 | 0xA | 0xB => wordPay w == 0
  | 0x2 => (wordPay w).extractLsb' 8 3 == 0
  | 0x6 => true
  | 0x9 => (wordPay w).extractLsb' 6 5 == 0
  | 0xC => wordPay w == 0 && w.getLsbD 11 == false
  | _ => false

/-- The input has a meaning. A DP2 select is reserved only when both strobes are set (R66); the reset signal
always has its meaning (R131). -/
def definedInput : Input → Bool
  | .cmd w => definedWord w
  | .dp2 _ sel => sel != 3
  | .resetSignal => true

end Sys2Proof
end

