-- ==== Sys2Proof/Decode.lean ====
section
/-! DEFINITION. The decoder of formats CMD16 and DP2, total on every input and rejecting by name, and after
it the encoder (rules R54 to R66, R70). -/

namespace Sys2Proof

/-- What the decoder answers (R64: "it returns either a command or the verdict `reserved`"; R66: the DP2 select
`0b00` is idle, no operation). -/
inductive Decoded where
  | instr (i : Instr)
  | idle (d : DividerId)
  | reservedWord (w : Word)
  | reservedSelect (d : DividerId)
  deriving DecidableEq, Repr

/-- The channel select of a word, `c = w[11]` (R54, R56). -/
def chanField (w : Word) : Chan := if w.getLsbD 11 then .ch1 else .ch0

/-- One CMD16 row of the opcode table: `match`, `mask`, and the command its fields make (R57, R63). -/
structure Row where
  mnemonic : Mnemonic
  bits : Word
  mask : Word
  build : Word → Instr

/-- `(w AND mask) == match` (R63). -/
def Row.accepts (r : Row) (w : Word) : Bool := w &&& r.mask == r.bits

/-- The twelve CMD16 rows, in the table's order (R63), each with its payload fields (R57 to R60). -/
def cmd16Rows : List Row :=
  [ ⟨.swpTick, 0x1000, 0xF7FF, fun w => .swpTick (chanField w)⟩,
    ⟨.swpWr, 0x2000, 0xF700, fun w =>
      .swpWr (chanField w) (w.getLsbD 7) (w.extractLsb' 4 3) (w.getLsbD 3) (w.extractLsb' 0 3)⟩,
    ⟨.swpMute, 0x3000, 0xF7FF, fun w => .swpMute (chanField w)⟩,
    ⟨.swpTgt, 0x4000, 0xF7FF, fun w => .swpTgt (chanField w)⟩,
    ⟨.swpChg, 0x5000, 0xF7FF, fun w => .swpChg (chanField w)⟩,
    ⟨.perWr, 0x6000, 0xF000, fun w => .perWr (chanField w) (w.extractLsb' 0 11)⟩,
    ⟨.perRd, 0x7000, 0xF7FF, fun w => .perRd (chanField w)⟩,
    ⟨.envTick, 0x8000, 0xF7FF, fun w => .envTick (chanField w)⟩,
    ⟨.envWr, 0x9000, 0xF7C0, fun w =>
      .envWr (chanField w) (w.getLsbD 5) (w.getLsbD 4) (w.extractLsb' 0 4)⟩,
    ⟨.envStart, 0xA000, 0xF7FF, fun w => .envStart (chanField w)⟩,
    ⟨.envVol, 0xB000, 0xF7FF, fun w => .envVol (chanField w)⟩,
    ⟨.rst, 0xC000, 0xFFFF, fun _ => .rst⟩ ]

/-- The CMD16 decoder: the command of the first (and only) row that accepts the word, else the verdict
reserved (R63, R64). -/
def decodeCmd16 (w : Word) : Decoded :=
  match cmd16Rows.find? (fun r => r.accepts w) with
  | some r => .instr (r.build w)
  | none => .reservedWord w

/-- The DP2 select at the port of the Divider `d` (the table of R66). -/
def decodeDp2 (d : DividerId) (sel : Select) : Decoded :=
  match sel.toNat with
  | 0 => .idle d
  | 1 => .instr (.divClk d)
  | 2 => .instr (.divRld d)
  | _ => .reservedSelect d

/-- What an input asks for. The reset signal has the effect of `RST` (R131). -/
def decodeInput : Input → Decoded
  | .cmd w => decodeCmd16 w
  | .dp2 d sel => decodeDp2 d sel
  | .resetSignal => .instr .rst

/-! ### The encoder -/

/-- The channel bit (R54, R56). -/
def chanBit : Chan → BitVec 1
  | .ch0 => 0
  | .ch1 => 1

/-- A CMD16 word from its three fields, `opc` in bits 15:12, `c` in bit 11, `pay` in bits 10:0 (R54). -/
def cmd16 (opc : BitVec 4) (c : BitVec 1) (pay : BitVec 11) : Word := opc ++ c ++ pay

/-- The payload of `SWP.WR`, `000 E PPP N SSS` from bit 10 down (R57, R58). -/
def swpWrPayload (e : Bool) (p : BitVec 3) (n : Bool) (s : BitVec 3) : BitVec 11 :=
  (0#3 ++ BitVec.ofBool e ++ p ++ BitVec.ofBool n ++ s : BitVec 11)

/-- The payload of `ENV.WR`, `00000 L C VVVV` from bit 10 down (R57, R59). -/
def envWrPayload (l cv : Bool) (v : BitVec 4) : BitVec 11 :=
  (0#5 ++ BitVec.ofBool l ++ BitVec.ofBool cv ++ v : BitVec 11)

/-- The input that carries an instruction: a CMD16 word (opcode map R55, payloads R57 to R60) or a DP2 select
at the instance's port (R66). -/
def encode : Instr → Input
  | .swpTick c => .cmd (cmd16 0x1 (chanBit c) 0)
  | .swpWr c e p n s => .cmd (cmd16 0x2 (chanBit c) (swpWrPayload e p n s))
  | .swpMute c => .cmd (cmd16 0x3 (chanBit c) 0)
  | .swpTgt c => .cmd (cmd16 0x4 (chanBit c) 0)
  | .swpChg c => .cmd (cmd16 0x5 (chanBit c) 0)
  | .perWr c t => .cmd (cmd16 0x6 (chanBit c) t)
  | .perRd c => .cmd (cmd16 0x7 (chanBit c) 0)
  | .envTick c => .cmd (cmd16 0x8 (chanBit c) 0)
  | .envWr c l cv v => .cmd (cmd16 0x9 (chanBit c) (envWrPayload l cv v))
  | .envStart c => .cmd (cmd16 0xA (chanBit c) 0)
  | .envVol c => .cmd (cmd16 0xB (chanBit c) 0)
  | .rst => .cmd (cmd16 0xC 0 0)
  | .divClk d => .dp2 d 1
  | .divRld d => .dp2 d 2

/-! ### The opcode table's words -/

/-- The port that stands for a DP2 row of the opcode table, which names no instance: the sweep divider of
channel 0 (DESIGN CHOICE, log entry 4). -/
def tablePort : DividerId := .sweep .ch0

/-- The input that the bits of an opcode-table row make: a row of at most one byte is a DP2 select, a longer one
a CMD16 word. A number too large for its format is no input of the block and stands as a reserved one (DESIGN
CHOICE, log entry 9). -/
def tableInput (nbits w : Nat) : Input :=
  if nbits ≤ 8 then
    if w < 4 then .dp2 tablePort (BitVec.ofNat 2 w) else .dp2 tablePort 3
  else
    if w < 65536 then .cmd (BitVec.ofNat 16 w) else .cmd 0

/-- The instruction the decoder reads from an opcode-table row's bits. -/
def decodeTableWord (nbits w : Nat) : Option Instr :=
  match decodeInput (tableInput nbits w) with
  | .instr i => some i
  | _ => none

end Sys2Proof
end

