-- ==== Sys2Proof/Machine/Fetch.lean ====
section
/-! DEFINITION. What the outside agents send, and how the block takes it (R33, R48, R132): there is no fetch
and no program counter; inputs are taken one at a time, in the order they come. -/

namespace Sys2Proof.Machine

/-- The next input, and the state with it taken from the list; none if the agents have sent no more. -/
def takeInput (s : State) : Option (Input × State) :=
  match s.inputs with
  | [] => none
  | inp :: rest => some (inp, { s with inputs := rest })

/-- A Divider port with the idle select `0b00`: "no operation; `counter` holds", and `fired` is false
(R66, R73; log entry 7). -/
def idlePort (_ : DividerId) (s : State) : State := s.answer (.fired false)

/-- Nothing was sent: idleness is the absence of a command, and everything stays as it is (R65, R134; DEDUCED,
log entry 6). -/
def idleBlock (s : State) : State := s

/-- An outside agent sends one more input, to be taken next. -/
def sendNext (s : State) (inp : Input) : State := { s with inputs := inp :: s.inputs }

end Sys2Proof.Machine
end

