-- ==== Sys2Proof/Machine/Step.lean ====
section
/-! DEFINITION. One step: the next input is decoded and executed to completion (R44, R48, R137). A reserved word
or select is refused (R64, R66, R142). -/

namespace Sys2Proof.Machine

def step (s : State) : Host.Outcome State Fault Refusal :=
  match takeInput s with
  | none => .next (idleBlock s)
  | some (inp, s) =>
    match decodeInput inp with
    | .instr i => exec i s
    | .idle d => .next (idlePort d s)
    | .reservedWord w => .refused (.reservedWord w)
    | .reservedSelect d => .refused (.reservedSelect d)

/-- The bits of an opcode-table row are sent as the next input. Nothing else changes: the block needs no program
and no selection (log entry 5). -/
def State.withFetchWord (s : State) (nbits w : Nat) : State := sendNext s (tableInput nbits w)

end Sys2Proof.Machine
end

