-- ==== Sys2Proof/Machine/Adder.lean ====
section
/-! DEFINITION. The fixed-width realisation of the target period that rule R95 describes: a 12-bit adder whose
carry-in is the one difference between the two channels. The machine does not use it (the normative definition is
R82 to R84, in Flags.lean). A statement says that the two agree. -/

namespace Sys2Proof.Machine

/-- `raw = cur >> shiftCount` as an 11-bit value (R95). -/
def adderRaw (u : Sweep) (cur : Period) : Period := cur >>> u.shiftCount.toNat

/-- The adder's carry-in `k` with negate set: 0 for `OnesComplement`, 1 for `TwosComplement` (R95). -/
def adderCarryIn : Polarity → BitVec 12
  | .onesComplement => 0
  | .twosComplement => 1

/-- The 12-bit sum `t` (R95). -/
def adderSum (pol : Polarity) (u : Sweep) (cur : Period) : BitVec 12 :=
  if u.negateFlag then
    cur.zeroExtend 12 + (~~~(adderRaw u cur)).zeroExtend 12 + adderCarryIn pol
  else cur.zeroExtend 12 + (adderRaw u cur).zeroExtend 12

/-- The target period of the realisation: with negate set and no carry out, the clamp at 0 (R95). -/
def adderTarget (pol : Polarity) (u : Sweep) (cur : Period) : BitVec 12 :=
  let t := adderSum pol u cur
  if u.negateFlag then
    if t.getLsbD 11 then (t.extractLsb' 0 11).zeroExtend 12 else 0
  else t

/-- The overflow of the realisation: bit 11 of the sum with negate clear, 0 with negate set (R95). -/
def adderOverflow (pol : Polarity) (u : Sweep) (cur : Period) : Bool :=
  if u.negateFlag then false else (adderSum pol u cur).getLsbD 11

/-- The mute flag of the realisation: `(cur[10:3] == 0) OR overflow` (R95). -/
def adderMuted (pol : Polarity) (u : Sweep) (cur : Period) : Bool :=
  cur.extractLsb' 3 8 == 0 || adderOverflow pol u cur

end Sys2Proof.Machine
end

