-- ==== Sys2Proof/Machine/Assembler.lean ====
section
/-! DEFINITION. The assembler syntax of rule R68, the pseudo-instructions of rule R69, and the printed form of a
response word. Text is a list of characters. The micro-operations `DIV.CLK` and `DIV.RLD` have no operand in the
text (R68). The Divider instance they are applied to is the argument `port`
(DESIGN CHOICE, log entry 10, which also names the points of the text that rule R68 leaves open). -/

namespace Sys2Proof

/-! ### Commands -/

/-- The channel with index `c`. -/
def chanOf (c : Nat) : Chan := if c = 1 then .ch1 else .ch0

/-- The command that a mnemonic and its operands make, operands taken to be in range. -/
def AsmCmd.build (port : DividerId) (a : AsmCmd) : Option Instr :=
  match a.mnemonic, a.operands with
  | .swpTick, [c] => some (.swpTick (chanOf c))
  | .swpWr, [c, e, p, n, s] =>
    some (.swpWr (chanOf c) (e == 1) (BitVec.ofNat 3 p) (n == 1) (BitVec.ofNat 3 s))
  | .swpMute, [c] => some (.swpMute (chanOf c))
  | .swpTgt, [c] => some (.swpTgt (chanOf c))
  | .swpChg, [c] => some (.swpChg (chanOf c))
  | .perWr, [c, t] => some (.perWr (chanOf c) (BitVec.ofNat 11 t))
  | .perRd, [c] => some (.perRd (chanOf c))
  | .envTick, [c] => some (.envTick (chanOf c))
  | .envWr, [c, l, cv, v] => some (.envWr (chanOf c) (l == 1) (cv == 1) (BitVec.ofNat 4 v))
  | .envStart, [c] => some (.envStart (chanOf c))
  | .envVol, [c] => some (.envVol (chanOf c))
  | .rst, [] => some .rst
  | .divClk, [] => some (.divClk port)
  | .divRld, [] => some (.divRld port)
  | _, _ => none

/-- Assemble one command: none is the assembly error of rule R68. -/
def assemble (port : DividerId) (a : AsmCmd) : Option Instr := if a.wf then a.build port else none

/-- The assembler command that writes an instruction (R68; with `encode`'s inverse, the disassembler of R71). -/
def disassemble : Instr → AsmCmd
  | .swpTick c => ⟨.swpTick, [c.index]⟩
  | .swpWr c e p n s => ⟨.swpWr, [c.index, e.toNat, p.toNat, n.toNat, s.toNat]⟩
  | .swpMute c => ⟨.swpMute, [c.index]⟩
  | .swpTgt c => ⟨.swpTgt, [c.index]⟩
  | .swpChg c => ⟨.swpChg, [c.index]⟩
  | .perWr c t => ⟨.perWr, [c.index, t.toNat]⟩
  | .perRd c => ⟨.perRd, [c.index]⟩
  | .envTick c => ⟨.envTick, [c.index]⟩
  | .envWr c l cv v => ⟨.envWr, [c.index, l.toNat, cv.toNat, v.toNat]⟩
  | .envStart c => ⟨.envStart, [c.index]⟩
  | .envVol c => ⟨.envVol, [c.index]⟩
  | .rst => ⟨.rst, []⟩
  | .divClk _ => ⟨.divClk, []⟩
  | .divRld _ => ⟨.divRld, []⟩

/-! ### Pseudo-instructions -/

/-- The expansion of a pseudo-instruction, in the order of the table (R69). -/
def Pseudo.expand : Pseudo → List Instr
  | .hft => [.swpTick .ch0, .swpTick .ch1]
  | .qft => [.envTick .ch0, .envTick .ch1]
  | .hqft => [.envTick .ch0, .envTick .ch1, .swpTick .ch0, .swpTick .ch1]

/-- The commands of one line. -/
def assembleLine (port : DividerId) : AsmLine → Option (List Instr)
  | .blank => some []
  | .cmd a => (assemble port a).map (fun i => [i])
  | .pseudo p => some p.expand

/-! ### Text -/

/-- A blank character. -/
def isBlank (c : Char) : Bool := c == ' ' || c == '\t' || c == '\r'

/-- The text without blanks at either end. -/
def trimBlanks (cs : List Char) : List Char :=
  ((cs.dropWhile isBlank).reverse.dropWhile isBlank).reverse

/-- The pieces between separators. -/
def splitAtChar (sep : Char) : List Char → List (List Char)
  | [] => [[]]
  | c :: cs =>
    if c == sep then [] :: splitAtChar sep cs
    else
      match splitAtChar sep cs with
      | [] => [[c]]
      | piece :: pieces => (c :: piece) :: pieces

/-- The value of a digit, decimal or hexadecimal. -/
def digitValue (c : Char) : Option Nat :=
  if '0' ≤ c ∧ c ≤ '9' then some (c.toNat - '0'.toNat)
  else if 'a' ≤ c ∧ c ≤ 'f' then some (c.toNat - 'a'.toNat + 10)
  else if 'A' ≤ c ∧ c ≤ 'F' then some (c.toNat - 'A'.toNat + 10)
  else none

/-- The digits' value in a base, added behind an accumulator. -/
def digitsFrom (base : Nat) (acc : Nat) : List Char → Option Nat
  | [] => some acc
  | c :: cs =>
    match digitValue c with
    | some v => if v < base then digitsFrom base (acc * base + v) cs else none
    | none => none

/-- A number: decimal, or hexadecimal after `0x` (R68). -/
def parseNumber : List Char → Option Nat
  | [] => none
  | '0' :: 'x' :: [] => none
  | '0' :: 'x' :: ds => digitsFrom 16 0 ds
  | ds => digitsFrom 10 0 ds

/-- How each mnemonic is written (R68). -/
def Mnemonic.text : Mnemonic → List Char
  | .swpTick => ['S', 'W', 'P', '.', 'T', 'I', 'C', 'K']
  | .swpWr => ['S', 'W', 'P', '.', 'W', 'R']
  | .swpMute => ['S', 'W', 'P', '.', 'M', 'U', 'T', 'E']
  | .swpTgt => ['S', 'W', 'P', '.', 'T', 'G', 'T']
  | .swpChg => ['S', 'W', 'P', '.', 'C', 'H', 'G']
  | .perWr => ['P', 'E', 'R', '.', 'W', 'R']
  | .perRd => ['P', 'E', 'R', '.', 'R', 'D']
  | .envTick => ['E', 'N', 'V', '.', 'T', 'I', 'C', 'K']
  | .envWr => ['E', 'N', 'V', '.', 'W', 'R']
  | .envStart => ['E', 'N', 'V', '.', 'S', 'T', 'A', 'R', 'T']
  | .envVol => ['E', 'N', 'V', '.', 'V', 'O', 'L']
  | .rst => ['R', 'S', 'T']
  | .divClk => ['D', 'I', 'V', '.', 'C', 'L', 'K']
  | .divRld => ['D', 'I', 'V', '.', 'R', 'L', 'D']

/-- Every mnemonic, in the order of rule R68. -/
def allMnemonics : List Mnemonic :=
  [.swpTick, .swpWr, .swpMute, .swpTgt, .swpChg, .perWr, .perRd, .envTick, .envWr, .envStart, .envVol, .rst,
    .divClk, .divRld]

/-- How each pseudo-instruction is written (R69). -/
def Pseudo.text : Pseudo → List Char
  | .hft => ['H', 'F', 'T']
  | .qft => ['Q', 'F', 'T']
  | .hqft => ['H', 'Q', 'F', 'T']

/-- The operands of a line, comma separated; none at all for blank text. -/
def parseOperands (cs : List Char) : Option (List Nat) :=
  match trimBlanks cs with
  | [] => some []
  | body => (splitAtChar ',' body).mapM (fun piece => parseNumber (trimBlanks piece))

/-- One line of assembler text: a semicolon starts a comment, the mnemonic comes first, its operands after
blanks (R68). None is a syntax error. A line that carries its response after `->` is one: rule R68 writes a response
there and does not say whether such a line is source text; here it is not (DESIGN CHOICE, log entry 10). -/
def parseLine (line : List Char) : Option AsmLine :=
  match trimBlanks (line.takeWhile (· != ';')) with
  | [] => some .blank
  | body =>
    let word := body.takeWhile (fun c => !isBlank c)
    let rest := body.dropWhile (fun c => !isBlank c)
    match parseOperands rest with
    | none => none
    | some ops =>
      match allMnemonics.find? (fun m => m.text == word) with
      | some m => some (.cmd ⟨m, ops⟩)
      | none =>
        match [Pseudo.hft, .qft, .hqft].find? (fun p => p.text == word), ops with
        | some p, [] => some (.pseudo p)
        | _, _ => none

/-- A program is a list of lines executed top to bottom, one command a line (R68, R134). None is an assembly
error somewhere in it. -/
def assembleText (port : DividerId) (text : List Char) : Option (List Instr) :=
  ((splitAtChar '\n' text).mapM (fun l => (parseLine l).bind (assembleLine port))).map List.flatten

/-- One hexadecimal digit, as the spec writes it. -/
def hexDigit (n : Nat) : Char :=
  if n < 10 then Char.ofNat ('0'.toNat + n) else Char.ofNat ('A'.toNat + (n - 10))

/-- A response word as it is written after an arrow, `0x` and four hexadecimal digits (R68). -/
def showWord (w : Word) : List Char :=
  ['0', 'x', hexDigit (w.toNat / 4096), hexDigit (w.toNat / 256 % 16), hexDigit (w.toNat / 16 % 16),
    hexDigit (w.toNat % 16)]

end Sys2Proof
end

