-- ==== Sys2Proof/Safety.lean ====
section
/-! DEFINITION. What the statements are made of: a run as a fold over a list of commands (R48, R134, R137), the
invariant of the sweep divider (R78, R166), and the inputs that a run may hold (R156). -/

namespace Sys2Proof.Machine

/-- A run: the commands applied first to last, each to the state the one before it left (R48, R134). -/
def execAll : List Instr → State → Host.Outcome State Fault Refusal
  | [], s => .next s
  | i :: is, s =>
    match exec i s with
    | .next t => execAll is t
    | .fault r => .fault r
    | .refused r => .refused r

/-- What the commands of a run answer, one for each, in order (R134: "collecting the responses"; R69). -/
def answers : List Instr → State → List Output
  | [], _ => []
  | i :: is, s =>
    match exec i s with
    | .next t => t.out :: answers is t
    | .fault _ => []
    | .refused _ => []

/-- `n` times the same command. -/
def execTimes (n : Nat) (i : Instr) (s : State) : Host.Outcome State Fault Refusal :=
  execAll (List.replicate n i) s

/-- A sweep divider's counter is at most its period unless a reload is pending (R78, R166: a write that lowers the
period sets `reloadFlag`, and the next tick reloads). -/
def Sweep.bounded (u : Sweep) : Prop :=
  u.reloadFlag = false → u.div.counter.toNat ≤ u.dividerPeriod.toNat

/-- The invariant of the machine: both sweep dividers are bounded. (The envelope dividers are not: `ENV.WR` sets no
reload flag, R167.) -/
def State.Inv (s : State) : Prop := ∀ c, (s.ch c).swp.bounded

/-- Every input still to come has a meaning. -/
def State.definedInputs (s : State) : Prop := ∀ inp ∈ s.inputs, definedInput inp = true

/-- The counter of a Divider instance, as a number (R74). -/
def State.counter (s : State) : DividerId → Nat
  | .sweep c => (s.ch c).swp.div.counter.toNat
  | .envelope c => (s.ch c).env.div.counter.toNat

/-- The `period` input of a Divider instance, wired to its owner's field (R30, R74). -/
def State.dividerInput (s : State) : DividerId → Nat
  | .sweep c => (s.ch c).swp.dividerPeriod.toNat
  | .envelope c => (s.ch c).env.V.toNat

/-- The two halves of a channel that share no field: the period register with the SweepUnit, and the
EnvelopeGenerator (R15, R138). -/
inductive Half where
  | sweep
  | envelope
  deriving DecidableEq, Repr

/-- The half channel a command reads and writes; none for `RST`, which writes everything (R31, R41, R138). -/
def footprint : Instr → Option (Chan × Half)
  | .swpTick c => some (c, .sweep)
  | .swpWr c _ _ _ _ => some (c, .sweep)
  | .swpMute c => some (c, .sweep)
  | .swpTgt c => some (c, .sweep)
  | .swpChg c => some (c, .sweep)
  | .perWr c _ => some (c, .sweep)
  | .perRd c => some (c, .sweep)
  | .envTick c => some (c, .envelope)
  | .envWr c _ _ _ => some (c, .envelope)
  | .envStart c => some (c, .envelope)
  | .envVol c => some (c, .envelope)
  | .rst => none
  | .divClk (.sweep c) => some (c, .sweep)
  | .divClk (.envelope c) => some (c, .envelope)
  | .divRld (.sweep c) => some (c, .sweep)
  | .divRld (.envelope c) => some (c, .envelope)

/-- The side-effect-free queries (R45). -/
def isQuery : Instr → Bool
  | .swpMute _ => true
  | .swpTgt _ => true
  | .swpChg _ => true
  | .perRd _ => true
  | .envVol _ => true
  | _ => false

/-- The writes that rule R45 lists as idempotent. -/
def isIdempotentWrite : Instr → Bool
  | .swpWr _ _ _ _ _ => true
  | .envWr _ _ _ _ => true
  | .perWr _ _ => true
  | .envStart _ => true
  | .rst => true
  | _ => false

end Sys2Proof.Machine
end

