-- ==== Sys2Proof/Certificates/Slice0/Obligations.lean ====
section
/-! DEFINITION. The statements for the provers, each with the rule of spec/ it formalises. A result statement names
the whole next state, so that it is also the instruction's completion and its frame. In all of them `inputs` and
`out` are the model's own fields (log entry 1): `out` is where a response word, or a Divider's `fired`, stands.
A docstring that begins with "Derived" is about something the spec marks as its own inference ("[derived: ...]"),
or states a rule in part only, or rests on a log entry that it names. -/

open Sys2Proof Sys2Proof.Machine

/-! ### Reset -/

/-- R38: every field of both channels after reset. The period is the open parameter, whatever its value. -/
def Obligations.ResetStateHasTheTableValues : Prop :=
  (∀ c, State.reset.ch c =
    { period := Config.resetChPeriod
      swp :=
        { enabled := false, shiftCount := 0, negateFlag := false, dividerPeriod := 0, div := ⟨0⟩
          reloadFlag := false }
      env :=
        { startFlag := false, V := 0, div := ⟨0⟩, decayLevelCounter := 0, loopFlag := false
          constantVolumeFlag := false } }) ∧
  Config.negatePolarity .ch0 = .onesComplement ∧ Config.negatePolarity .ch1 = .twosComplement

/-- R131: `RST` gives every field of both channels its reset value whatever it was before, answers nothing and
leaves the inputs alone. The reset signal does the same. -/
def Obligations.RstResetsEveryField : Prop :=
  ∀ s : State,
    (exec .rst s = .next
      { ch0 := State.reset.ch0
        ch1 := State.reset.ch1
        inputs := s.inputs
        out := .nothing }) ∧
    (∀ c, State.reset.ch c =
      { period := Config.resetChPeriod
        swp :=
          { enabled := false, shiftCount := 0, negateFlag := false, dividerPeriod := 0, div := ⟨0⟩
            reloadFlag := false }
        env :=
          { startFlag := false, V := 0, div := ⟨0⟩, decayLevelCounter := 0, loopFlag := false
            constantVolumeFlag := false } }) ∧
    encode .rst = .cmd 0xC000 ∧
    decodeInput .resetSignal = .instr .rst

/-- Derived. R160: the outputs of both channels after `RST` from any state, whatever the open parameter is. -/
def Obligations.OutputsAfterReset : Prop :=
  ∀ (s : State) (c : Chan), ∃ t, exec .rst s = .next t ∧
    t.volume c = 0 ∧ t.period c = Config.resetChPeriod ∧
    t.targetPeriod c = 2 * (Config.resetChPeriod.toNat : Int) ∧
    (t.muted c = true ↔ Config.resetChPeriod.toNat < 8 ∨ 1024 ≤ Config.resetChPeriod.toNat)

/-! ### Divider -/

/-- R75: `DIV.CLK` at each Divider instance, with its encoding. -/
def Obligations.DivClkReloadsAtZeroElseDecrements : Prop :=
  (∀ (c : Chan) (s : State),
    let u := (s.ch c).swp
    exec (.divClk (.sweep c)) s = .next
      { s.setCh c { s.ch c with
          swp := { u with div := ⟨if u.div.counter.toNat = 0 then u.dividerPeriod else u.div.counter - 1⟩ } } with
        out := .fired (decide (u.div.counter.toNat = 0)) }) ∧
  (∀ (c : Chan) (s : State),
    let g := (s.ch c).env
    exec (.divClk (.envelope c)) s = .next
      { s.setCh c { s.ch c with
          env := { g with div := ⟨if g.div.counter.toNat = 0 then g.V else g.div.counter - 1⟩ } } with
        out := .fired (decide (g.div.counter.toNat = 0)) }) ∧
  ∀ d, encode (.divClk d) = .dp2 d 1

/-- R76: `DIV.RLD` at each Divider instance, with its encoding; it signals no fire, whatever the counter was ("a model
returns false or nothing"). -/
def Obligations.DivRldReloadsAlways : Prop :=
  (∀ (c : Chan) (s : State), ∃ o, (o = .nothing ∨ o = .fired false) ∧
    exec (.divRld (.sweep c)) s = .next
      { s.setCh c { s.ch c with
          swp := { (s.ch c).swp with div := ⟨(s.ch c).swp.dividerPeriod⟩ } } with
        out := o }) ∧
  (∀ (c : Chan) (s : State), ∃ o, (o = .nothing ∨ o = .fired false) ∧
    exec (.divRld (.envelope c)) s = .next
      { s.setCh c { s.ch c with
          env := { (s.ch c).env with div := ⟨(s.ch c).env.V⟩ } } with
        out := o }) ∧
  ∀ d, encode (.divRld d) = .dp2 d 2

/-- Derived. R77: a Divider that has just been reloaded and is only clocked does not fire for `period` clocks and
fires at clock `period + 1`, reloaded again. -/
def Obligations.DividerFiresOncePerPeriodPlusOne : Prop :=
  ∀ (d : DividerId) (s : State), s.counter d = s.dividerInput d →
    (∀ n, n ≤ s.dividerInput d → ∃ t, execTimes n (.divClk d) s = .next t ∧
      t.counter d = s.dividerInput d - n ∧ (0 < n → t.out = .fired false)) ∧
    ∃ t, execTimes (s.dividerInput d + 1) (.divClk d) s = .next t ∧
      t.counter d = s.dividerInput d ∧ t.out = .fired true

/-- Derived. R78 for the envelope dividers: no command but an `ENV.WR` to the channel takes the counter above `V`. -/
def Obligations.OnlyEnvWrBreaksTheEnvelopeBound : Prop :=
  ∀ (i : Instr) (s t : State) (c : Chan), (∀ l cv v, i ≠ .envWr c l cv v) →
    s.counter (.envelope c) ≤ s.dividerInput (.envelope c) → exec i s = .next t →
    t.counter (.envelope c) ≤ t.dividerInput (.envelope c)

/-! ### Target period and mute -/

/-- R82, R87: the value `SWP.CHG` answers, read as a signed word, and nothing else changed. -/
def Obligations.SwpChgAnswersTheChangeAmount : Prop :=
  ∀ (c : Chan) (s : State),
    let u := (s.ch c).swp
    let raw : Int := (s.ch c).period.toNat / 2 ^ u.shiftCount.toNat
    (∃ r : Word, exec (.swpChg c) s = .next { s with out := .response r } ∧
      r.toInt =
        if u.negateFlag = true then (if c = .ch0 then -raw - 1 else -raw) else raw) ∧
    encode (.swpChg c) = .cmd (if c = .ch0 then 0x5000 else 0x5800)

/-- R83, R88: the value `SWP.TGT` answers, clamped at zero from below and neither clamped nor truncated above, and
nothing else changed. -/
def Obligations.SwpTgtAnswersTheTargetPeriod : Prop :=
  ∀ (c : Chan) (s : State),
    (∃ r : Word, exec (.swpTgt c) s = .next { s with out := .response r } ∧
      (r.toNat : Int) = max 0 ((s.ch c).period.toNat + s.changeAmount c)) ∧
    encode (.swpTgt c) = .cmd (if c = .ch0 then 0x4000 else 0x4800)

/-- R84, R89: the value `SWP.MUTE` answers, both comparisons strict, and nothing else changed. -/
def Obligations.SwpMuteAnswersTheMuteFlag : Prop :=
  ∀ (c : Chan) (s : State),
    exec (.swpMute c) s = .next { s with
      out := .response (if (s.ch c).period.toNat < 8 ∨ 2047 < s.targetPeriod c then 1 else 0) } ∧
    encode (.swpMute c) = .cmd (if c = .ch0 then 0x3000 else 0x3800)

/-- Derived. R91: the ranges of the arithmetic. -/
def Obligations.ArithmeticStaysInRange : Prop :=
  ∀ (pol : Polarity) (u : Sweep) (p : Period),
    rawChange u p ≤ p.toNat ∧
    -2048 ≤ computeChangeAmount pol u p ∧ computeChangeAmount pol u p ≤ 2047 ∧
    -1 ≤ p.toNat + computeChangeAmount pol u p ∧ p.toNat + computeChangeAmount pol u p ≤ 4094 ∧
    0 ≤ computeTargetPeriod pol u p ∧ computeTargetPeriod pol u p ≤ 4094

/-- Derived. R92: with negate set the target never exceeds the period, only the period mutes, and the clamp acts
exactly on the one's complement channel with shift 0 or period 0. -/
def Obligations.NegateNeverMutesByOverflow : Prop :=
  ∀ (pol : Polarity) (u : Sweep) (p : Period), u.negateFlag = true →
    computeTargetPeriod pol u p ≤ p.toNat ∧
    (isMuted pol u p = true ↔ p.toNat < 8) ∧
    (p.toNat + computeChangeAmount pol u p < 0 ↔
      pol = .onesComplement ∧ (u.shiftCount = 0 ∨ p = 0))

/-- Derived. R93: with negate clear, the least muted period of each shift count; at shift 0 the target is twice the
period. -/
def Obligations.MuteThresholdsPerShiftCount : Prop :=
  ∀ (pol : Polarity) (u : Sweep) (p : Period), u.negateFlag = false →
    (isMuted pol u p = true ↔ p.toNat < 8 ∨
      [1024, 1366, 1639, 1821, 1928, 1986, 2017, 2033].getD u.shiftCount.toNat 0 ≤ p.toNat) ∧
    (u.shiftCount = 0 →
      computeChangeAmount pol u p = p.toNat ∧ computeTargetPeriod pol u p = 2 * (p.toNat : Int))

/-- Derived. R94 and R85: the mute flag depends on the period, the shift count and the negate flag alone: not on
the channel's polarity, nor on `enabled`, the divider or `reloadFlag`. -/
def Obligations.MuteDependsOnPeriodShiftNegateOnly : Prop :=
  ∀ (s s' : State) (c c' : Chan),
    (s.ch c).period = (s'.ch c').period →
    (s.ch c).swp.shiftCount = (s'.ch c').swp.shiftCount →
    (s.ch c).swp.negateFlag = (s'.ch c').swp.negateFlag →
    s.muted c = s'.muted c'

/-- Derived. R95: the 12-bit adder with a carry-in agrees with the integer definitions on every input. -/
def Obligations.AdderRealisesTheTargetPeriod : Prop :=
  ∀ (pol : Polarity) (u : Sweep) (p : Period),
    ((adderTarget pol u p).toNat : Int) = computeTargetPeriod pol u p ∧
    adderMuted pol u p = isMuted pol u p

/-! ### SweepUnit -/

/-- R100: the three steps of the half-frame tick and its response, and nothing else changed. -/
def Obligations.SwpTickFollowsTheThreeSteps : Prop :=
  ∀ (c : Chan) (s : State),
    let u := (s.ch c).swp
    let muted := s.muted c
    let newPeriod : Period :=
      if u.div.counter.toNat = 0 ∧ u.enabled = true ∧ u.shiftCount.toNat ≠ 0 ∧ muted = false then
        BitVec.ofInt 11 (s.targetPeriod c)
      else (s.ch c).period
    let unit : Sweep :=
      if u.div.counter.toNat = 0 ∨ u.reloadFlag = true then
        { u with div := ⟨u.dividerPeriod⟩, reloadFlag := false }
      else { u with div := ⟨u.div.counter - 1⟩ }
    exec (.swpTick c) s = .next
      { s.setCh c { s.ch c with period := newPeriod, swp := unit } with
        out := .response (BitVec.ofNat 16 ((if muted = true then 2048 else 0) + newPeriod.toNat)) } ∧
    encode (.swpTick c) = .cmd (if c = .ch0 then 0x1000 else 0x1800)

/-- R102: the divider's next counter and the reload flag depend on the pre-tick counter, `reloadFlag` and
`dividerPeriod` only, and the flag is clear after every tick. -/
def Obligations.DividerMaintenanceOnEveryTick : Prop :=
  ∀ (c : Chan) (s : State), ∃ t, exec (.swpTick c) s = .next t ∧
    (t.ch c).swp.reloadFlag = false ∧
    t.counter (.sweep c) =
      if s.counter (.sweep c) = 0 ∨ (s.ch c).swp.reloadFlag = true then (s.ch c).swp.dividerPeriod.toNat
      else s.counter (.sweep c) - 1

/-- Derived. R103: the muted bit of a tick's response is the value before the update, and may differ from the mute
flag right after it. -/
def Obligations.TickMutedBitCanBeStale : Prop :=
  ∃ s t : State, exec (.swpTick .ch1) s = .next t ∧
    t.out = .response (BitVec.ofNat 16 1702) ∧ s.muted .ch1 = false ∧ t.muted .ch1 = true

/-- Derived. R104: an update stores the target itself, nothing lost and no clamp acting. A tick that changes the
period stores at least 3. -/
def Obligations.NewPeriodIsAlwaysLegal : Prop :=
  ∀ (c : Chan) (s : State), ∃ t, exec (.swpTick c) s = .next t ∧
    ((t.ch c).period ≠ (s.ch c).period →
      ((t.ch c).period.toNat : Int) = s.targetPeriod c ∧
      ((t.ch c).period.toNat : Int) = (s.ch c).period.toNat + s.changeAmount c ∧
      3 ≤ (t.ch c).period.toNat)

/-- R105: `SWP.WR` replaces the four fields and sets `reloadFlag`; the counter, the period and all else stay. -/
def Obligations.SwpWrReplacesFieldsAndSetsReload : Prop :=
  ∀ (c : Chan) (e : Bool) (p : BitVec 3) (n : Bool) (sh : BitVec 3) (s : State),
    exec (.swpWr c e p n sh) s = .next
      { s.setCh c { s.ch c with
          swp :=
            { enabled := e, shiftCount := sh, negateFlag := n, dividerPeriod := p, div := (s.ch c).swp.div
              reloadFlag := true } } with
        out := .nothing } ∧
    encode (.swpWr c e p n sh) = .cmd (BitVec.ofNat 16
      (0x2000 + c.index * 0x800 + e.toNat * 128 + p.toNat * 16 + n.toNat * 8 + sh.toNat))

/-- Derived. R107: with the divider just reloaded and no write in between, `dividerPeriod` ticks change neither the
period nor the configuration, and tick `dividerPeriod + 1` updates an enabled, unmuted sweep with a shift. -/
def Obligations.SweepUpdatesOncePerPeriodPlusOne : Prop :=
  ∀ (c : Chan) (s : State),
    let u := (s.ch c).swp
    u.div.counter = u.dividerPeriod → u.reloadFlag = false →
    (∀ n, n ≤ u.dividerPeriod.toNat → ∃ t, execTimes n (.swpTick c) s = .next t ∧
      t.period c = s.period c ∧ t.counter (.sweep c) = u.dividerPeriod.toNat - n) ∧
    ∃ t, execTimes (u.dividerPeriod.toNat + 1) (.swpTick c) s = .next t ∧ (t.ch c).swp = u ∧
      ((t.period c).toNat : Int) =
        if u.enabled = true ∧ u.shiftCount ≠ 0 ∧ s.muted c = false then s.targetPeriod c
        else (s.period c).toNat

/-- Derived. R110: once a channel is muted, ticks alone never change its period or unmute it. -/
def Obligations.MutedSweepStaysFrozen : Prop :=
  ∀ (c : Chan) (s : State) (n : Nat), s.muted c = true →
    ∃ t, execTimes n (.swpTick c) s = .next t ∧ t.period c = s.period c ∧ t.muted c = true

/-- Derived. R166 and R78: a sweep divider's counter is at most its period unless a reload is pending; every step
keeps that, from every state that has it. -/
def Obligations.StepKeepsSweepDividersBounded : Prop :=
  ∀ s t : State, s.Inv → step s = .next t → t.Inv

/-- Derived. The invariant of `StepKeepsSweepDividersBounded` holds after reset. -/
def Obligations.ResetHasSweepDividersBounded : Prop := State.reset.Inv

/-! ### EnvelopeGenerator -/

/-- R114 (and the table of R115): the quarter-frame tick, and nothing else changed. -/
def Obligations.EnvTickFollowsTheTable : Prop :=
  ∀ (c : Chan) (s : State),
    let g := (s.ch c).env
    let g' : Envelope :=
      if g.startFlag = true then { g with startFlag := false, div := ⟨g.V⟩, decayLevelCounter := 15 }
      else if g.div.counter.toNat ≠ 0 then { g with div := ⟨g.div.counter - 1⟩ }
      else if 0 < g.decayLevelCounter.toNat then
        { g with div := ⟨g.V⟩, decayLevelCounter := g.decayLevelCounter - 1 }
      else { g with div := ⟨g.V⟩, decayLevelCounter := if g.loopFlag = true then 15 else 0 }
    exec (.envTick c) s = .next { s.setCh c { s.ch c with env := g' } with out := .nothing } ∧
    encode (.envTick c) = .cmd (if c = .ch0 then 0x8000 else 0x8800)

/-- R116: `ENV.WR` replaces its three fields; the start flag, the decay counter, the divider and all else stay. -/
def Obligations.EnvWrReplacesThreeFields : Prop :=
  ∀ (c : Chan) (l cv : Bool) (v : BitVec 4) (s : State),
    exec (.envWr c l cv v) s = .next
      { s.setCh c { s.ch c with
          env :=
            { startFlag := (s.ch c).env.startFlag, V := v, div := (s.ch c).env.div
              decayLevelCounter := (s.ch c).env.decayLevelCounter, loopFlag := l, constantVolumeFlag := cv } } with
        out := .nothing } ∧
    encode (.envWr c l cv v) = .cmd (BitVec.ofNat 16
      (0x9000 + c.index * 0x800 + l.toNat * 32 + cv.toNat * 16 + v.toNat))

/-- R117: `ENV.START` sets the start flag and changes nothing else. -/
def Obligations.EnvStartSetsTheFlagOnly : Prop :=
  ∀ (c : Chan) (s : State),
    exec (.envStart c) s = .next
      { s.setCh c { s.ch c with env := { (s.ch c).env with startFlag := true } } with out := .nothing } ∧
    encode (.envStart c) = .cmd (if c = .ch0 then 0xA000 else 0xA800)

/-- R118: `ENV.VOL` answers `V` in constant-volume mode, else the decay counter; nothing else changed. -/
def Obligations.EnvVolAnswersTheVolume : Prop :=
  ∀ (c : Chan) (s : State),
    (∃ r : Word, exec (.envVol c) s = .next { s with out := .response r } ∧
      r.toNat = if (s.ch c).env.constantVolumeFlag = true then (s.ch c).env.V.toNat
        else (s.ch c).env.decayLevelCounter.toNat) ∧
    encode (.envVol c) = .cmd (if c = .ch0 then 0xB000 else 0xB800)

/-- R119: `ENV.START` changes no output; on the next tick the decay counter is 15, the divider reloaded and the flag
clear. -/
def Obligations.StartTakesEffectAtTheNextTick : Prop :=
  ∀ (c : Chan) (s : State), ∃ t u, exec (.envStart c) s = .next t ∧
    (∀ c', t.period c' = s.period c' ∧ t.muted c' = s.muted c' ∧ t.volume c' = s.volume c') ∧
    exec (.envTick c) t = .next u ∧
    (u.ch c).env.decayLevelCounter = 15 ∧ (u.ch c).env.div.counter = (s.ch c).env.V ∧
    (u.ch c).env.startFlag = false

/-- Derived. R120 and R121 without looping: after a start and its tick, `n` more ticks leave the decay counter at
`15 - n / (V + 1)` and never below 0, and the divider at `V - n % (V + 1)`. -/
def Obligations.DecayStepsEveryPeriodPlusOneToZero : Prop :=
  ∀ (c : Chan) (s : State) (n : Nat), (s.ch c).env.loopFlag = false →
    let v := (s.ch c).env.V.toNat
    ∃ t, execAll (.envStart c :: .envTick c :: List.replicate n (.envTick c)) s = .next t ∧
      (t.ch c).env.decayLevelCounter.toNat = 15 - n / (v + 1) ∧
      t.counter (.envelope c) = v - n % (v + 1)

/-- Derived. R121 with looping: the decay counter wraps from 0 to 15 and its values repeat every `16 * (V + 1)`
ticks. -/
def Obligations.LoopingDecayRepeats : Prop :=
  ∀ (c : Chan) (s : State) (n : Nat), (s.ch c).env.loopFlag = true →
    let v := (s.ch c).env.V.toNat
    ∃ t, execAll (.envStart c :: .envTick c :: List.replicate n (.envTick c)) s = .next t ∧
      (t.ch c).env.decayLevelCounter.toNat = 15 - n / (v + 1) % 16 ∧
      t.counter (.envelope c) = v - n % (v + 1)

/-- Derived. R125: the constant-volume flag changes nothing of what ticks do to the envelope, however many there
are; the volume is then `V`. -/
def Obligations.ConstantVolumeNeverPausesTheDecay : Prop :=
  ∀ (c : Chan) (s : State) (n : Nat), ∃ t t',
    execTimes n (.envTick c) s = .next t ∧
    execTimes n (.envTick c) (s.setEnv c { (s.ch c).env with constantVolumeFlag := true }) = .next t' ∧
    (t'.ch c).env = { (t.ch c).env with constantVolumeFlag := true } ∧
    t'.volume c = (s.ch c).env.V

/-- Derived. R167: after an `ENV.WR` the divider counts down from where it is, `k` ticks that do not fire, and only
then loads the new `V` and steps the decay counter. -/
def Obligations.EnvWrActsAtTheNextReload : Prop :=
  ∀ (c : Chan) (l cv : Bool) (v : BitVec 4) (s : State), (s.ch c).env.startFlag = false →
    let k := s.counter (.envelope c)
    let d := (s.ch c).env.decayLevelCounter
    (∀ n, n ≤ k → ∃ t, execAll (.envWr c l cv v :: List.replicate n (.envTick c)) s = .next t ∧
      t.counter (.envelope c) = k - n ∧ (t.ch c).env.decayLevelCounter = d) ∧
    ∃ t, execAll (.envWr c l cv v :: List.replicate (k + 1) (.envTick c)) s = .next t ∧
      t.counter (.envelope c) = v.toNat ∧
      (t.ch c).env.decayLevelCounter.toNat =
        if 0 < d.toNat then d.toNat - 1 else if l = true then 15 else 0

/-! ### Channel period -/

/-- R129: `PER.WR` replaces the whole period and changes nothing else, not even `reloadFlag`. -/
def Obligations.PerWrReplacesThePeriod : Prop :=
  ∀ (c : Chan) (p : Period) (s : State),
    exec (.perWr c p) s = .next { s.setCh c { s.ch c with period := p } with out := .nothing } ∧
    encode (.perWr c p) = .cmd (BitVec.ofNat 16 (0x6000 + c.index * 0x800 + p.toNat))

/-- R130: `PER.RD` answers the period, zero-extended; nothing else changed. -/
def Obligations.PerRdAnswersThePeriod : Prop :=
  ∀ (c : Chan) (s : State),
    (∃ r : Word, exec (.perRd c) s = .next { s with out := .response r } ∧ r.toNat = (s.ch c).period.toNat) ∧
    encode (.perRd c) = .cmd (if c = .ch0 then 0x7000 else 0x7800)

/-- Derived. R84, R86: a period below 8 written by `PER.WR` mutes at once, with no tick in between, under every
sweep configuration. -/
def Obligations.PeriodBelowEightMutesAtOnce : Prop :=
  ∀ (c : Chan) (p : Period) (s : State), p.toNat < 8 →
    ∃ t, execAll [.perWr c p, .swpMute c] s = .next t ∧ t.out = .response 1

/-! ### Whole-machine rules -/

/-- R139: every defined command, in every state, completes with a next state, and takes none of the inputs still to
come. -/
def Obligations.EveryCommandCompletes : Prop :=
  ∀ (i : Instr) (s : State), ∃ t, exec i s = .next t ∧ t.inputs = s.inputs

/-- Derived. R31: a field that a command changes is a field the table lets it write. The Divider's
micro-operations write the counter of the instance they are applied to (R22, R26; log entry 4). Only `SWP.WR`
sets `reloadFlag` and only `ENV.START` sets `startFlag` (R111, R126). -/
def Obligations.OnlyTheListedWritersChangeAField : Prop :=
  ∀ (i : Instr) (s t : State) (c : Chan), exec i s = .next t →
    let k := s.ch c
    let k' := t.ch c
    let swpWr := ∃ e p n sh, i = .swpWr c e p n sh
    let envWr := ∃ l cv v, i = .envWr c l cv v
    (k'.period ≠ k.period → (∃ p, i = .perWr c p) ∨ i = .swpTick c ∨ i = .rst) ∧
    (k'.swp.enabled ≠ k.swp.enabled → swpWr ∨ i = .rst) ∧
    (k'.swp.shiftCount ≠ k.swp.shiftCount → swpWr ∨ i = .rst) ∧
    (k'.swp.negateFlag ≠ k.swp.negateFlag → swpWr ∨ i = .rst) ∧
    (k'.swp.dividerPeriod ≠ k.swp.dividerPeriod → swpWr ∨ i = .rst) ∧
    (k'.swp.div.counter ≠ k.swp.div.counter →
      i = .swpTick c ∨ i = .rst ∨ i = .divClk (.sweep c) ∨ i = .divRld (.sweep c)) ∧
    (k.swp.reloadFlag = false → k'.swp.reloadFlag = true → swpWr) ∧
    (k.swp.reloadFlag = true → k'.swp.reloadFlag = false → i = .swpTick c ∨ i = .rst) ∧
    (k.env.startFlag = false → k'.env.startFlag = true → i = .envStart c) ∧
    (k.env.startFlag = true → k'.env.startFlag = false → i = .envTick c ∨ i = .rst) ∧
    (k'.env.V ≠ k.env.V → envWr ∨ i = .rst) ∧
    (k'.env.div.counter ≠ k.env.div.counter →
      i = .envTick c ∨ i = .rst ∨ i = .divClk (.envelope c) ∨ i = .divRld (.envelope c)) ∧
    (k'.env.decayLevelCounter ≠ k.env.decayLevelCounter → i = .envTick c ∨ i = .rst) ∧
    (k'.env.loopFlag ≠ k.env.loopFlag → envWr ∨ i = .rst) ∧
    (k'.env.constantVolumeFlag ≠ k.env.constantVolumeFlag → envWr ∨ i = .rst)

/-- Derived. R138, R153: a command on one half of a channel leaves the other channel and the other half alone, and
what it leaves and answers depends on that half only. -/
def Obligations.CommandsStayInsideTheirHalf : Prop :=
  ∀ (i : Instr) (s s' t t' : State) (c : Chan) (h : Half),
    footprint i = some (c, h) → exec i s = .next t → exec i s' = .next t' →
    (∀ c', c' ≠ c → t.ch c' = s.ch c') ∧
    match h with
    | .sweep =>
      (t.ch c).env = (s.ch c).env ∧
      ((s.ch c).period = (s'.ch c).period → (s.ch c).swp = (s'.ch c).swp →
        (t.ch c).period = (t'.ch c).period ∧ (t.ch c).swp = (t'.ch c).swp ∧ t.out = t'.out)
    | .envelope =>
      (t.ch c).period = (s.ch c).period ∧ (t.ch c).swp = (s.ch c).swp ∧
      ((s.ch c).env = (s'.ch c).env → (t.ch c).env = (t'.ch c).env ∧ t.out = t'.out)

/-- Derived. R50: two commands on different half channels, and any two queries, commute: the same channels and the
same two answers in either order. -/
def Obligations.DisjointCommandsCommute : Prop :=
  ∀ (i j : Instr) (s : State),
    (footprint i ≠ none ∧ footprint j ≠ none ∧ footprint i ≠ footprint j) ∨
      (isQuery i = true ∧ isQuery j = true) →
    ∃ t tt u uu, exec i s = .next t ∧ exec j t = .next tt ∧ exec j s = .next u ∧ exec i u = .next uu ∧
      (∀ c, tt.ch c = uu.ch c) ∧ t.out = uu.out ∧ tt.out = u.out

/-- Derived. R45: a query leaves both channels as they are, and a query or an idempotent write issued twice in a
row leaves and answers what issuing it once does. -/
def Obligations.QueriesArePureAndWritesIdempotent : Prop :=
  ∀ (i : Instr) (s : State), isQuery i = true ∨ isIdempotentWrite i = true →
    ∃ t, exec i s = .next t ∧ exec i t = .next t ∧ (isQuery i = true → ∀ c, t.ch c = s.ch c)

/-- Derived. R69: any order of a pseudo-instruction's expansion leaves the same channels. -/
def Obligations.PseudoExpansionOrderIsFree : Prop :=
  ∀ (p : Pseudo) (l : List Instr) (s : State), l.Perm p.expand →
    ∃ t t', execAll p.expand s = .next t ∧ execAll l s = .next t' ∧ ∀ c, t'.ch c = t.ch c

/-- Derived. R69: the pseudo-instructions' responses come in expansion order, each what its own `SWP.TICK` answers in
the state before. -/
def Obligations.PseudoTicksAnswerInExpansionOrder : Prop :=
  ∀ s : State, ∃ t0 t1, exec (.swpTick .ch0) s = .next t0 ∧ exec (.swpTick .ch1) s = .next t1 ∧
    answers Pseudo.hft.expand s = [t0.out, t1.out] ∧
    answers Pseudo.qft.expand s = [.nothing, .nothing] ∧
    answers Pseudo.hqft.expand s = [.nothing, .nothing, t0.out, t1.out]

/-! ### Decoding and encoding -/

/-- Derived. R71: decoding an encoded instruction gives it back, every operand at every value. -/
def Obligations.DecodeInvertsEncode : Prop := ∀ i : Instr, decodeInput (encode i) = .instr i

/-- Derived. R71: a command word that decodes to an instruction is that instruction's encoding, and so is a DP2
select at its port. (The reset signal, which has the effect of `RST` and is no word, is not covered.) -/
def Obligations.EncodeInvertsDecode : Prop :=
  (∀ (w : Word) (i : Instr), decodeCmd16 w = .instr i → encode i = .cmd w) ∧
  ∀ (d : DividerId) (sel : Select) (i : Instr), decodeDp2 d sel = .instr i → encode i = .dp2 d sel

/-- Derived. R63: a word that a row accepts decodes to that row's command, and no other row accepts it. -/
def Obligations.RowsDecodeUnambiguously : Prop :=
  ∀ (w : Word) (r : Row), r ∈ cmd16Rows → r.accepts w = true →
    decodeCmd16 w = .instr (r.build w) ∧
    ∀ r' ∈ cmd16Rows, r'.accepts w = true → r'.mnemonic = r.mnemonic

/-- R64, R142: the words the decoder calls reserved are exactly those with an undefined opcode, a must-be-zero bit
set, or `RST` with `c = 1`; a step on one is refused. -/
def Obligations.ReservedWordsAreExactlyRefused : Prop :=
  ∀ (w : Word),
    (decodeCmd16 w = .reservedWord w ↔
      wordOpc w ∈ [0x0, 0xD, 0xE, 0xF] ∨
      wordOpc w ∈ [0x1, 0x3, 0x4, 0x5, 0x7, 0x8, 0xA, 0xB, 0xC] ∧ wordPay w ≠ 0 ∨
      wordOpc w = 0x2 ∧ 256 ≤ (wordPay w).toNat ∨
      wordOpc w = 0x9 ∧ 64 ≤ (wordPay w).toNat ∨
      wordOpc w = 0xC ∧ w.getLsbD 11 = true) ∧
    ∀ s : State, decodeCmd16 w = .reservedWord w →
      step { s with inputs := .cmd w :: s.inputs } = .refused (.reservedWord w)

/-- Derived. R66, R73: the four selects of a DP2 port, in a step: idle keeps every counter and does not fire,
`0b11` is refused. That an outside agent can drive the port, and that the port names the instance, is the
model's choice (log entry 4). -/
def Obligations.Dp2SelectsAtAPort : Prop :=
  ∀ (d : DividerId) (s : State),
    step { s with inputs := .dp2 d 0 :: s.inputs } = .next { s with out := .fired false } ∧
    step { s with inputs := .dp2 d 1 :: s.inputs } = exec (.divClk d) s ∧
    step { s with inputs := .dp2 d 2 :: s.inputs } = exec (.divRld d) s ∧
    step { s with inputs := .dp2 d 3 :: s.inputs } = .refused (.reservedSelect d)

/-- Derived. R70: the assembled word as a number, `opc * 4096 + c * 2048 + pay`. -/
def Obligations.AssembledWordIsTheFormula : Prop :=
  ∀ (i : Instr) (w : Word), encode i = .cmd w →
    w.toNat = match i with
      | .swpTick c => 0x1 * 4096 + c.index * 2048
      | .swpWr c e p n sh =>
        0x2 * 4096 + c.index * 2048 + (e.toNat * 128 + p.toNat * 16 + n.toNat * 8 + sh.toNat)
      | .swpMute c => 0x3 * 4096 + c.index * 2048
      | .swpTgt c => 0x4 * 4096 + c.index * 2048
      | .swpChg c => 0x5 * 4096 + c.index * 2048
      | .perWr c t => 0x6 * 4096 + c.index * 2048 + t.toNat
      | .perRd c => 0x7 * 4096 + c.index * 2048
      | .envTick c => 0x8 * 4096 + c.index * 2048
      | .envWr c l cv v => 0x9 * 4096 + c.index * 2048 + (l.toNat * 32 + cv.toNat * 16 + v.toNat)
      | .envStart c => 0xA * 4096 + c.index * 2048
      | .envVol c => 0xB * 4096 + c.index * 2048
      | .rst => 0xC000
      | .divClk _ => 0
      | .divRld _ => 0

/-- Derived. R72: worked encodings of the spec decode to the commands they stand for. -/
def Obligations.WorkedEncodingsDecode : Prop :=
  decodeCmd16 0xC000 = .instr .rst ∧
  decodeCmd16 0x6864 = .instr (.perWr .ch1 100) ∧
  decodeCmd16 0x2881 = .instr (.swpWr .ch1 true 0 false 1) ∧
  decodeCmd16 0x20AA = .instr (.swpWr .ch0 true 2 true 2) ∧
  decodeCmd16 0x1800 = .instr (.swpTick .ch1) ∧
  decodeCmd16 0x4800 = .instr (.swpTgt .ch1) ∧
  decodeCmd16 0x9035 = .instr (.envWr .ch0 true true 5) ∧
  decodeCmd16 0xA000 = .instr (.envStart .ch0) ∧
  decodeCmd16 0x1001 = .reservedWord 0x1001 ∧
  decodeCmd16 0x9040 = .reservedWord 0x9040

/-- Derived. R68: the assembler accepts exactly the commands with these operands, in this number and these ranges; any
other is an assembly error (log entry 10 for the port of the two micro-operations). -/
def Obligations.AssemblerAcceptsExactlyInRange : Prop :=
  ∀ (port : DividerId) (m : Mnemonic) (ops : List Nat),
    (∃ i, assemble port ⟨m, ops⟩ = some i) ↔
      match m with
      | .swpTick => ∃ c, ops = [c] ∧ c ≤ 1
      | .swpWr => ∃ c e p n s, ops = [c, e, p, n, s] ∧ c ≤ 1 ∧ e ≤ 1 ∧ p ≤ 7 ∧ n ≤ 1 ∧ s ≤ 7
      | .swpMute => ∃ c, ops = [c] ∧ c ≤ 1
      | .swpTgt => ∃ c, ops = [c] ∧ c ≤ 1
      | .swpChg => ∃ c, ops = [c] ∧ c ≤ 1
      | .perWr => ∃ c t, ops = [c, t] ∧ c ≤ 1 ∧ t ≤ 2047
      | .perRd => ∃ c, ops = [c] ∧ c ≤ 1
      | .envTick => ∃ c, ops = [c] ∧ c ≤ 1
      | .envWr => ∃ c l cv v, ops = [c, l, cv, v] ∧ c ≤ 1 ∧ l ≤ 1 ∧ cv ≤ 1 ∧ v ≤ 15
      | .envStart => ∃ c, ops = [c] ∧ c ≤ 1
      | .envVol => ∃ c, ops = [c] ∧ c ≤ 1
      | .rst => ops = []
      | .divClk => ops = []
      | .divRld => ops = []

/-- Derived. R71: assembling what an instruction disassembles to gives the instruction back (log entry 10 for
the port of the two micro-operations). -/
def Obligations.AssembleInvertsDisassemble : Prop :=
  ∀ (port : DividerId) (i : Instr), (∀ d, i = .divClk d ∨ i = .divRld d → d = port) →
    assemble port (disassemble i) = some i

/-- Derived. R71, the other direction: what a command assembles to disassembles to that command, so no two commands
assemble to one instruction. -/
def Obligations.DisassembleInvertsAssemble : Prop :=
  ∀ (port : DividerId) (a : AsmCmd) (i : Instr), assemble port a = some i → disassemble i = a

/-! ### Steps and runs -/

/-- Derived. R48, R137: a step takes the next input and runs exactly the instruction it decodes to. With no
input nothing happens (R65, R134; log entry 6). -/
def Obligations.StepRunsTheDecodedInstruction : Prop :=
  (∀ (s : State) (inp : Input) (rest : List Input) (i : Instr),
    s.inputs = inp :: rest → decodeInput inp = .instr i → step s = exec i { s with inputs := rest }) ∧
  ∀ s : State, s.inputs = [] → step s = .next s

/-- Derived, the model's own (log entries 4 and 5): a table row's bits, sent by `withFetchWord`, are run by the
very next step from any state. -/
def Obligations.WithFetchWordRunsTheRow : Prop :=
  ∀ (nbits w : Nat) (i : Instr) (s : State), decodeTableWord nbits w = some i →
    step (s.withFetchWord nbits w) = exec i s

/-- Derived. R48, R134: from any state, the machine run on a list of encoded commands is the fold of the
commands' transition functions over the list. That the commands wait in a list is the model's choice (log entry
1). -/
def Obligations.RunIsTheFoldOfTheCommands : Prop :=
  ∀ (is : List Instr) (rest : List Input) (s : State), s.inputs = is.map encode ++ rest →
    ∃ t, execAll is { s with inputs := rest } = .next t ∧ Sys2Proof.core.run is.length s = .next t

/-- Derived. R156, R64: a run over defined inputs never stops; a step that stops is refused, and only for a
reserved word or a reserved select (log entries 1 and 6). -/
def Obligations.OnlyReservedInputsStopTheMachine : Prop :=
  (∀ (n : Nat) (s : State), s.definedInputs → ∃ t, Sys2Proof.core.run n s = .next t) ∧
  ∀ s : State, (∃ t, step s = .next t) ∨
    ∃ inp rest, s.inputs = inp :: rest ∧ definedInput inp = false ∧ ∃ r, step s = .refused r
end

