-- ==== Sys2Proof/Laws/Decode.lean ====
section
/-! SUPPORT. The table decoder seen opcode by opcode: a word is its three fields (R54), and what each opcode's words
decode to follows from the fields alone. -/

namespace Sys2Proof

/-- The channel of a channel bit. -/
def chanOfBit (b : BitVec 1) : Chan := if b = 1 then .ch1 else .ch0

@[simp] theorem chanOfBit_chanBit (c : Chan) : chanOfBit (chanBit c) = c := by cases c <;> rfl

@[simp] theorem chanBit_chanOfBit (b : BitVec 1) : chanBit (chanOfBit b) = b := by
  revert b
  decide

/-- What a word with these fields decodes to: an opcode without payload fields needs payload 0; the others take
their fields from the payload (R55, R57). -/
def decodeFields (opc : BitVec 4) (b : BitVec 1) (pay : BitVec 11) : Decoded :=
  let reserved := Decoded.reservedWord (cmd16 opc b pay)
  let plain := fun (i : Chan → Instr) => if pay = 0 then Decoded.instr (i (chanOfBit b)) else reserved
  match opc.toNat with
  | 0x1 => plain .swpTick
  | 0x2 =>
    if pay.toNat < 256 then
      .instr (.swpWr (chanOfBit b) (pay.getLsbD 7) (pay.extractLsb' 4 3) (pay.getLsbD 3) (pay.extractLsb' 0 3))
    else reserved
  | 0x3 => plain .swpMute
  | 0x4 => plain .swpTgt
  | 0x5 => plain .swpChg
  | 0x6 => .instr (.perWr (chanOfBit b) pay)
  | 0x7 => plain .perRd
  | 0x8 => plain .envTick
  | 0x9 =>
    if pay.toNat < 64 then
      .instr (.envWr (chanOfBit b) (pay.getLsbD 5) (pay.getLsbD 4) (pay.extractLsb' 0 4))
    else reserved
  | 0xA => plain .envStart
  | 0xB => plain .envVol
  | 0xC => if b = 0 ∧ pay = 0 then .instr .rst else reserved
  | _ => reserved

/-! ### Words as fields -/

/-- The bits of a word made of three fields (R54). -/
theorem cmd16_getLsbD (o : BitVec 4) (b : BitVec 1) (p : BitVec 11) (i : Nat) :
    (cmd16 o b p).getLsbD i =
      if i < 11 then p.getLsbD i else if i = 11 then b.getLsbD 0 else o.getLsbD (i - 12) := by
  have h : (cmd16 o b p).getLsbD i = ((o ++ b : BitVec (4 + 1)) ++ p : BitVec (4 + 1 + 11)).getLsbD i := rfl
  rw [h, BitVec.getLsbD_append, BitVec.getLsbD_append]
  by_cases h1 : i < 11
  · simp [h1]
  · by_cases h2 : i = 11
    · subst h2
      simp
    · have h3 : ¬ i - 11 < 1 := by omega
      have h4 : i - 11 - 1 = i - 12 := by omega
      simp [h1, h2, h3, h4]

/-- Every word is its fields (R54). -/
theorem cmd16_fields (w : Word) :
    cmd16 (w.extractLsb' 12 4) (w.extractLsb' 11 1) (w.extractLsb' 0 11) = w := by
  apply BitVec.eq_of_getLsbD_eq
  intro i hi
  rw [cmd16_getLsbD]
  simp only [BitVec.getLsbD_extractLsb']
  split
  · simp_all
  · split
    · simp_all
    · have h1 : i - 12 < 4 := by omega
      have h2 : 12 + (i - 12) = i := by omega
      simp [h1, h2]

/-- The three fields of a word made of three fields. -/
@[simp] theorem cmd16_opc (o : BitVec 4) (b : BitVec 1) (p : BitVec 11) :
    (cmd16 o b p).extractLsb' 12 4 = o := by
  apply BitVec.eq_of_getLsbD_eq
  intro i hi
  have h1 : ¬ 12 + i < 11 := by omega
  have h2 : ¬ 12 + i = 11 := by omega
  simp only [BitVec.getLsbD_extractLsb', cmd16_getLsbD, h1, h2, if_false]
  simp [hi]

@[simp] theorem cmd16_chan (o : BitVec 4) (b : BitVec 1) (p : BitVec 11) :
    (cmd16 o b p).extractLsb' 11 1 = b := by
  apply BitVec.eq_of_getLsbD_eq
  intro i hi
  have h0 : i = 0 := by omega
  subst h0
  rw [BitVec.getLsbD_extractLsb', cmd16_getLsbD]
  simp

/-- A field inside the payload is the payload's. -/
theorem cmd16_extract_pay (o : BitVec 4) (b : BitVec 1) (p : BitVec 11) (lo len : Nat) (h : lo + len ≤ 11) :
    (cmd16 o b p).extractLsb' lo len = p.extractLsb' lo len := by
  apply BitVec.eq_of_getLsbD_eq
  intro i hi
  have h1 : lo + i < 11 := by omega
  simp [BitVec.getLsbD_extractLsb', cmd16_getLsbD, h1]

@[simp] theorem cmd16_pay (o : BitVec 4) (b : BitVec 1) (p : BitVec 11) :
    (cmd16 o b p).extractLsb' 0 11 = p := by
  rw [cmd16_extract_pay _ _ _ _ _ (by omega)]
  simp

/-- Words are equal when their fields are. -/
theorem cmd16_inj {o o' : BitVec 4} {b b' : BitVec 1} {p p' : BitVec 11} :
    cmd16 o b p = cmd16 o' b' p' ↔ o = o' ∧ b = b' ∧ p = p' := by
  constructor
  · intro h
    exact ⟨by rw [← cmd16_opc o b p, h, cmd16_opc], by rw [← cmd16_chan o b p, h, cmd16_chan],
      by rw [← cmd16_pay o b p, h, cmd16_pay]⟩
  · rintro ⟨rfl, rfl, rfl⟩
    rfl

/-- Masking acts field by field. -/
theorem cmd16_and (o o' : BitVec 4) (b b' : BitVec 1) (p p' : BitVec 11) :
    cmd16 o b p &&& cmd16 o' b' p' = cmd16 (o &&& o') (b &&& b') (p &&& p') := by
  apply BitVec.eq_of_getLsbD_eq
  intro i hi
  simp only [BitVec.getLsbD_and, cmd16_getLsbD]
  split
  · rfl
  · split <;> rfl

/-- The channel operand of a word is its channel bit (R56). -/
@[simp] theorem chanField_cmd16 (o : BitVec 4) (b : BitVec 1) (p : BitVec 11) :
    chanField (cmd16 o b p) = chanOfBit b := by
  have h : (cmd16 o b p).getLsbD 11 = b.getLsbD 0 := by rw [cmd16_getLsbD]; simp
  rw [chanField, chanOfBit, h]
  clear h
  revert b
  decide

/-- A mask and a match made of fields accept a word field by field. -/
theorem accepts_cmd16 (o mo ko : BitVec 4) (b mb kb : BitVec 1) (p mp kp : BitVec 11) :
    (cmd16 o b p &&& cmd16 mo mb mp == cmd16 ko kb kp) =
      decide (o &&& mo = ko ∧ b &&& mb = kb ∧ p &&& mp = kp) := by
  rw [cmd16_and, Bool.eq_iff_iff]
  simp [cmd16_inj]

/-- The payload bits that must be zero for `SWP.WR` (R57). -/
theorem pay_swpWr_zero (p : BitVec 11) : p &&& 0x700#11 = 0#11 ↔ p.toNat < 256 := by
  revert p
  decide +kernel

/-- The payload bits that must be zero for `ENV.WR` (R57). -/
theorem pay_envWr_zero (p : BitVec 11) : p &&& 0x7C0#11 = 0#11 ↔ p.toNat < 64 := by
  revert p
  decide +kernel

/-! ### The decoder by fields -/

/-- A bit inside the payload is the payload's. -/
theorem cmd16_getElem_pay (o : BitVec 4) (b : BitVec 1) (p : BitVec 11) (i : Nat) (h : i < 11) :
    (cmd16 o b p)[i] = p[i] := by
  have h' : i < 16 := by omega
  rw [← BitVec.getLsbD_eq_getElem h', ← BitVec.getLsbD_eq_getElem h, cmd16_getLsbD, if_pos h]

theorem and_ones4 (x : BitVec 4) : x &&& 15#4 = x := BitVec.and_allOnes
theorem and_ones1 (x : BitVec 1) : x &&& 1#1 = x := BitVec.and_allOnes
theorem and_ones11 (x : BitVec 11) : x &&& 2047#11 = x := BitVec.and_allOnes

section Rows

variable (o k : BitVec 4) (b : BitVec 1) (p : BitVec 11)

/-- The mask `0xF7FF`: the opcode, and an empty payload. -/
theorem mask_plain : (cmd16 o b p &&& 0xF7FF#16 == cmd16 k 0#1 0#11) = decide (o = k ∧ p = 0#11) := by
  rw [show (0xF7FF#16 : Word) = cmd16 15#4 0#1 2047#11 by decide, accepts_cmd16]
  simp [and_ones4, and_ones11]

/-- The mask `0xF700`: the opcode, and an eight-bit payload. -/
theorem mask_swpWr : (cmd16 o b p &&& 0xF700#16 == cmd16 k 0#1 0#11) = decide (o = k ∧ p.toNat < 256) := by
  rw [show (0xF700#16 : Word) = cmd16 15#4 0#1 0x700#11 by decide, accepts_cmd16]
  simp [and_ones4, pay_swpWr_zero]

/-- The mask `0xF000`: the opcode alone. -/
theorem mask_perWr : (cmd16 o b p &&& 0xF000#16 == cmd16 k 0#1 0#11) = decide (o = k) := by
  rw [show (0xF000#16 : Word) = cmd16 15#4 0#1 0#11 by decide, accepts_cmd16]
  simp [and_ones4]

/-- The mask `0xF7C0`: the opcode, and a six-bit payload. -/
theorem mask_envWr : (cmd16 o b p &&& 0xF7C0#16 == cmd16 k 0#1 0#11) = decide (o = k ∧ p.toNat < 64) := by
  rw [show (0xF7C0#16 : Word) = cmd16 15#4 0#1 0x7C0#11 by decide, accepts_cmd16]
  simp [and_ones4, pay_envWr_zero]

/-- The mask `0xFFFF`: the whole word. -/
theorem mask_rst : (cmd16 o b p &&& 0xFFFF#16 == cmd16 k 0#1 0#11) = decide (o = k ∧ b = 0#1 ∧ p = 0#11) := by
  rw [show (0xFFFF#16 : Word) = cmd16 15#4 1#1 2047#11 by decide,
    accepts_cmd16]
  simp [and_ones4, and_ones1, and_ones11]

end Rows

/-- The table decoder, field by field. -/
theorem decodeCmd16_cmd16 (opc : BitVec 4) (b : BitVec 1) (pay : BitVec 11) :
    decodeCmd16 (cmd16 opc b pay) = decodeFields opc b pay := by
  have hopc : opc = 0#4 ∨ opc = 1#4 ∨ opc = 2#4 ∨ opc = 3#4 ∨ opc = 4#4 ∨ opc = 5#4 ∨ opc = 6#4 ∨ opc = 7#4 ∨ opc = 8#4 ∨ opc = 9#4 ∨
      opc = 10#4 ∨ opc = 11#4 ∨ opc = 12#4 ∨ opc = 13#4 ∨ opc = 14#4 ∨ opc = 15#4 := by
    revert opc
    decide
  have k1 : (0x1000#16 : Word) = cmd16 1#4 0#1 0#11 := by decide
  have k2 : (0x2000#16 : Word) = cmd16 2#4 0#1 0#11 := by decide
  have k3 : (0x3000#16 : Word) = cmd16 3#4 0#1 0#11 := by decide
  have k4 : (0x4000#16 : Word) = cmd16 4#4 0#1 0#11 := by decide
  have k5 : (0x5000#16 : Word) = cmd16 5#4 0#1 0#11 := by decide
  have k6 : (0x6000#16 : Word) = cmd16 6#4 0#1 0#11 := by decide
  have k7 : (0x7000#16 : Word) = cmd16 7#4 0#1 0#11 := by decide
  have k8 : (0x8000#16 : Word) = cmd16 8#4 0#1 0#11 := by decide
  have k9 : (0x9000#16 : Word) = cmd16 9#4 0#1 0#11 := by decide
  have kA : (0xA000#16 : Word) = cmd16 10#4 0#1 0#11 := by decide
  have kB : (0xB000#16 : Word) = cmd16 11#4 0#1 0#11 := by decide
  have kC : (0xC000#16 : Word) = cmd16 12#4 0#1 0#11 := by decide
  simp only [decodeCmd16, cmd16Rows, List.find?_cons, List.find?_nil, Row.accepts, BitVec.ofNat_eq_ofNat, k1, k2, k3,
    k4, k5, k6, k7, k8, k9, kA, kB, kC, mask_plain, mask_swpWr, mask_perWr, mask_envWr, mask_rst]
  rcases hopc with rfl | rfl | rfl | rfl | rfl | rfl | rfl | rfl | rfl | rfl | rfl | rfl | rfl | rfl | rfl | rfl <;>
    simp [decodeFields] <;>
    first
    | (by_cases h : pay = 0#11 <;> simp [h]; done)
    | (by_cases h : pay.toNat < 256 <;> simp [h, cmd16_getElem_pay, cmd16_extract_pay])
    | (by_cases h : pay.toNat < 64 <;> simp [h, cmd16_getElem_pay, cmd16_extract_pay])
    | (by_cases h : b = 0#1 <;> by_cases h' : pay = 0#11 <;> simp [h, h'])

end Sys2Proof
end

