-- ==== Sys2Proof/Laws/State.lean ====
section
/-! SUPPORT. One lemma for each part of the state and each update of it, so that no later proof unfolds a record
update. -/

namespace Sys2Proof.Machine

variable (s : State) (c c' : Chan) (k : Channel) (o : Output) (p : Period) (u : Sweep) (g : Envelope)

@[simp] theorem State.ch_ch0 : s.ch .ch0 = s.ch0 := rfl
@[simp] theorem State.ch_ch1 : s.ch .ch1 = s.ch1 := rfl

@[simp] theorem State.setCh_ch : (s.setCh c k).ch c = k := by cases c <;> rfl

@[simp] theorem State.setCh_ch_of_ne (h : c' ≠ c) : (s.setCh c k).ch c' = s.ch c' := by
  cases c <;> cases c' <;> first | rfl | exact absurd rfl h

@[simp] theorem State.setCh_inputs : (s.setCh c k).inputs = s.inputs := by cases c <;> rfl
@[simp] theorem State.setCh_out : (s.setCh c k).out = s.out := by cases c <;> rfl

@[simp] theorem State.setCh_setCh (k' : Channel) : (s.setCh c k).setCh c k' = s.setCh c k' := by
  cases c <;> rfl

@[simp] theorem State.setCh_self : s.setCh c (s.ch c) = s := by cases c <;> rfl

@[simp] theorem State.answer_ch : (s.answer o).ch c = s.ch c := by cases c <;> rfl
@[simp] theorem State.answer_inputs : (s.answer o).inputs = s.inputs := rfl
@[simp] theorem State.answer_out : (s.answer o).out = o := rfl

@[simp] theorem State.ch_withInputs (l : List Input) : { s with inputs := l }.ch c = s.ch c := by
  cases c <;> rfl

@[simp] theorem State.ch_withOut : { s with out := o }.ch c = s.ch c := by cases c <;> rfl

@[simp] theorem State.setPeriod_ch : (s.setPeriod c p).ch c = { s.ch c with period := p } := by
  simp [State.setPeriod]

@[simp] theorem State.setPeriod_ch_of_ne (h : c' ≠ c) : (s.setPeriod c p).ch c' = s.ch c' := by
  simp [State.setPeriod, h]

@[simp] theorem State.setPeriod_inputs : (s.setPeriod c p).inputs = s.inputs := by simp [State.setPeriod]

@[simp] theorem State.setSwp_ch : (s.setSwp c u).ch c = { s.ch c with swp := u } := by simp [State.setSwp]

@[simp] theorem State.setSwp_ch_of_ne (h : c' ≠ c) : (s.setSwp c u).ch c' = s.ch c' := by
  simp [State.setSwp, h]

@[simp] theorem State.setSwp_inputs : (s.setSwp c u).inputs = s.inputs := by simp [State.setSwp]

@[simp] theorem State.setEnv_ch : (s.setEnv c g).ch c = { s.ch c with env := g } := by simp [State.setEnv]

@[simp] theorem State.setEnv_ch_of_ne (h : c' ≠ c) : (s.setEnv c g).ch c' = s.ch c' := by
  simp [State.setEnv, h]

@[simp] theorem State.setEnv_inputs : (s.setEnv c g).inputs = s.inputs := by simp [State.setEnv]

/-- Two states are equal when both channels, the inputs and the answer are. -/
theorem State.ext_channels {s t : State} (hch : ∀ c, s.ch c = t.ch c) (hin : s.inputs = t.inputs)
    (hout : s.out = t.out) : s = t := by
  have h0 := hch .ch0
  have h1 := hch .ch1
  cases s
  cases t
  simp_all

/-- Taking the input that was sent next gives it back and leaves the state as it was. -/
@[simp] theorem takeInput_sendNext (inp : Input) : takeInput (sendNext s inp) = some (inp, s) := rfl

@[simp] theorem takeInput_nil (h : s.inputs = []) : takeInput s = none := by simp [takeInput, h]

theorem takeInput_cons {inp : Input} {rest : List Input} (h : s.inputs = inp :: rest) :
    takeInput s = some (inp, { s with inputs := rest }) := by simp [takeInput, h]

end Sys2Proof.Machine
end

