-- ==== Sys2Proof/Laws/Ops.lean ====
section
/-! SUPPORT. For each shared operation, what it can do, said once. -/

namespace Sys2Proof.Machine

/-! ### Divider -/

section Divider

variable {W : Nat} (d : Divider W) (p : BitVec W)

/-- Found at zero, a clocked divider reloads and fires (R75). -/
theorem Divider.clock_of_zero (h : d.counter = 0#W) : d.clock p = (⟨p⟩, true) := by simp [Divider.clock, h]

/-- Found above zero, it decrements and does not fire (R75). -/
theorem Divider.clock_of_ne_zero (h : d.counter ≠ 0#W) : d.clock p = (⟨d.counter - 1#W⟩, false) := by
  simp [Divider.clock, h]

@[simp] theorem Divider.forceReload_counter : (d.forceReload p).counter = p := rfl

/-- A decrement of a counter above zero, as a number. -/
theorem counter_sub_one_toNat {W : Nat} (x : BitVec W) (h : x ≠ 0#W) : (x - 1#W).toNat = x.toNat - 1 := by
  have hx : x.toNat ≠ 0 := fun h0 => h (BitVec.eq_of_toNat_eq (by simpa using h0))
  have hlt := x.isLt
  rcases Nat.eq_zero_or_pos W with rfl | hW
  · omega
  · have h1 : (1#W).toNat = 1 := by
      simp [Nat.mod_eq_of_lt (Nat.one_lt_two_pow (Nat.pos_iff_ne_zero.mp hW))]
    rw [BitVec.toNat_sub, h1]
    have : 2 ^ W - 1 + x.toNat = 2 ^ W + (x.toNat - 1) := by omega
    rw [this, Nat.add_mod_left, Nat.mod_eq_of_lt (by omega)]

/-- The counter after a clock, as a number (R75). -/
theorem Divider.clock_counter_toNat :
    (d.clock p).1.counter.toNat = if d.counter.toNat = 0 then p.toNat else d.counter.toNat - 1 := by
  by_cases h : d.counter = 0#W
  · simp [Divider.clock, h]
  · have hn : d.counter.toNat ≠ 0 := fun h0 => h (BitVec.eq_of_toNat_eq (by simpa using h0))
    rw [Divider.clock_of_ne_zero d p h, if_neg hn]
    exact counter_sub_one_toNat _ h

/-- A clock fires exactly when it found the counter at zero (R75). -/
theorem Divider.clock_fired : (d.clock p).2 = decide (d.counter = 0#W) := by
  by_cases h : d.counter = 0#W <;> simp [Divider.clock, h]

end Divider

/-! ### Target period -/

section Target

variable (pol : Polarity) (u : Sweep) (p : Period)

/-- `raw` is the floor of the period over a power of two (R82). -/
theorem rawChange_eq : rawChange u p = p.toNat / 2 ^ u.shiftCount.toNat := Nat.shiftRight_eq_div_pow _ _

/-- The raw change never exceeds the period (R91). -/
theorem rawChange_le : rawChange u p ≤ p.toNat := by
  rw [rawChange_eq]
  exact Nat.div_le_self _ _

/-- Muted, as the two strict comparisons (R84). -/
theorem isMuted_iff :
    isMuted pol u p = true ↔ p.toNat < 8 ∨ 2047 < computeTargetPeriod pol u p := by
  simp [isMuted]

/-- Not muted: an audible period whose target fits in 11 bits. -/
theorem isMuted_eq_false_iff :
    isMuted pol u p = false ↔ 8 ≤ p.toNat ∧ computeTargetPeriod pol u p ≤ 2047 := by
  simp [isMuted]

/-- The target is never negative (R83). -/
theorem computeTargetPeriod_nonneg : 0 ≤ computeTargetPeriod pol u p := by
  simp [computeTargetPeriod]

/-- The three results read the unit's shift count and negate flag only (R81). -/
theorem computeChangeAmount_congr {u u' : Sweep} (hs : u.shiftCount = u'.shiftCount)
    (hn : u.negateFlag = u'.negateFlag) : computeChangeAmount pol u p = computeChangeAmount pol u' p := by
  simp [computeChangeAmount, rawChange, hs, hn]

theorem isMuted_congr {u u' : Sweep} (hs : u.shiftCount = u'.shiftCount)
    (hn : u.negateFlag = u'.negateFlag) : isMuted pol u p = isMuted pol u' p := by
  simp [isMuted, computeTargetPeriod, computeChangeAmount_congr pol p hs hn]

end Target

/-! ### SweepUnit -/

section Sweep

variable (pol : Polarity) (u : Sweep) (p : Period)

/-- What step 3 can do: reload and clear the flag, or decrement with the flag already clear (R102). -/
theorem Sweep.maintainDivider_cases :
    ((u.div.counter = 0#3 ∨ u.reloadFlag = true) ∧
      u.maintainDivider = { u with div := ⟨u.dividerPeriod⟩, reloadFlag := false }) ∨
    (u.div.counter ≠ 0#3 ∧ u.reloadFlag = false ∧
      u.maintainDivider = { u with div := ⟨u.div.counter - 1#3⟩ }) := by
  by_cases h : u.div.counter = 0#3 ∨ u.reloadFlag = true
  · left
    exact ⟨h, by rw [Sweep.maintainDivider, if_pos h, Divider.forceReload]⟩
  · right
    have h0 : u.div.counter ≠ 0#3 := fun hc => h (.inl hc)
    have h1 : u.reloadFlag = false := by simpa using fun hr => h (.inr hr)
    exact ⟨h0, h1, by rw [Sweep.maintainDivider, if_neg h, Divider.clock_of_ne_zero _ _ h0]⟩

/-- The reload flag is clear after every tick (R102). -/
@[simp] theorem Sweep.maintainDivider_reloadFlag : u.maintainDivider.reloadFlag = false := by
  rcases u.maintainDivider_cases with ⟨_, h⟩ | ⟨_, hr, h⟩ <;> rw [h]
  exact hr

/-- A tick changes no configuration field (R111). -/
@[simp] theorem Sweep.maintainDivider_enabled : u.maintainDivider.enabled = u.enabled := by
  rcases u.maintainDivider_cases with ⟨_, h⟩ | ⟨_, _, h⟩ <;> rw [h]
@[simp] theorem Sweep.maintainDivider_shiftCount : u.maintainDivider.shiftCount = u.shiftCount := by
  rcases u.maintainDivider_cases with ⟨_, h⟩ | ⟨_, _, h⟩ <;> rw [h]
@[simp] theorem Sweep.maintainDivider_negateFlag : u.maintainDivider.negateFlag = u.negateFlag := by
  rcases u.maintainDivider_cases with ⟨_, h⟩ | ⟨_, _, h⟩ <;> rw [h]
@[simp] theorem Sweep.maintainDivider_dividerPeriod : u.maintainDivider.dividerPeriod = u.dividerPeriod := by
  rcases u.maintainDivider_cases with ⟨_, h⟩ | ⟨_, _, h⟩ <;> rw [h]

/-- Step 2's gate, as its four conjuncts (R101). -/
theorem Sweep.updates_iff :
    u.updates pol p = true ↔
      u.div.counter = 0#3 ∧ u.enabled = true ∧ u.shiftCount ≠ 0#3 ∧ isMuted pol u p = false := by
  simp [Sweep.updates, and_assoc]

/-- An update stores the target itself: it fits in 11 bits (R104). -/
theorem Sweep.newPeriod_toNat_of_updates (h : u.updates pol p = true) :
    ((u.newPeriod pol p).toNat : Int) = computeTargetPeriod pol u p := by
  have hm := ((u.updates_iff pol p).mp h).2.2.2
  have hle := ((isMuted_eq_false_iff pol u p).mp hm).2
  have h0 := computeTargetPeriod_nonneg pol u p
  simp only [Sweep.newPeriod, h, if_true, BitVec.toNat_ofNat]
  omega

/-- Without an update the period stays (R100). -/
theorem Sweep.newPeriod_of_not_updates (h : u.updates pol p = false) : u.newPeriod pol p = p := by
  simp [Sweep.newPeriod, h]

end Sweep

/-! ### EnvelopeGenerator -/

section Envelope

variable (g : Envelope)

/-- What a quarter-frame tick can do: restart; decrement the divider; or reload it and step the decay counter
(R115). -/
theorem Envelope.onQuarterFrameClock_cases :
    (g.startFlag = true ∧ g.onQuarterFrameClock =
      { g with startFlag := false, decayLevelCounter := Config.decayMax, div := ⟨g.V⟩ }) ∨
    (g.startFlag = false ∧ g.div.counter ≠ 0#4 ∧ g.onQuarterFrameClock =
      { g with div := ⟨g.div.counter - 1#4⟩ }) ∨
    (g.startFlag = false ∧ g.div.counter = 0#4 ∧ g.onQuarterFrameClock =
      { g with div := ⟨g.V⟩, decayLevelCounter := g.nextDecay }) := by
  by_cases hs : g.startFlag = true
  · left
    exact ⟨hs, by simp [Envelope.onQuarterFrameClock, hs, Divider.forceReload]⟩
  · have hs' : g.startFlag = false := by simpa using hs
    right
    by_cases hc : g.div.counter = 0#4
    · right
      exact ⟨hs', hc, by simp [Envelope.onQuarterFrameClock, hs', hc, Divider.clock]⟩
    · left
      exact ⟨hs', hc, by simp [Envelope.onQuarterFrameClock, hs', hc, Divider.clock]⟩

/-- The start flag is clear after every tick (R115). -/
@[simp] theorem Envelope.onQuarterFrameClock_startFlag : g.onQuarterFrameClock.startFlag = false := by
  rcases g.onQuarterFrameClock_cases with ⟨_, h⟩ | ⟨hs, _, h⟩ | ⟨hs, _, h⟩ <;> rw [h]
  · exact hs
  · exact hs

/-- A tick changes no configuration field (R126). -/
@[simp] theorem Envelope.onQuarterFrameClock_V : g.onQuarterFrameClock.V = g.V := by
  rcases g.onQuarterFrameClock_cases with ⟨_, h⟩ | ⟨_, _, h⟩ | ⟨_, _, h⟩ <;> rw [h]
@[simp] theorem Envelope.onQuarterFrameClock_loopFlag : g.onQuarterFrameClock.loopFlag = g.loopFlag := by
  rcases g.onQuarterFrameClock_cases with ⟨_, h⟩ | ⟨_, _, h⟩ | ⟨_, _, h⟩ <;> rw [h]
@[simp] theorem Envelope.onQuarterFrameClock_constantVolumeFlag :
    g.onQuarterFrameClock.constantVolumeFlag = g.constantVolumeFlag := by
  rcases g.onQuarterFrameClock_cases with ⟨_, h⟩ | ⟨_, _, h⟩ | ⟨_, _, h⟩ <;> rw [h]

/-- The decay counter after a fire, as a number (R114). -/
theorem Envelope.nextDecay_toNat :
    g.nextDecay.toNat =
      if g.decayLevelCounter.toNat ≠ 0 then g.decayLevelCounter.toNat - 1
      else if g.loopFlag = true then 15 else 0 := by
  by_cases hd : g.decayLevelCounter = 0#4
  · cases hl : g.loopFlag <;> simp [Envelope.nextDecay, hd, hl]
  · have hn : g.decayLevelCounter.toNat ≠ 0 := fun h0 => hd (BitVec.eq_of_toNat_eq (by simpa using h0))
    simp only [Envelope.nextDecay, ne_eq, hd, not_false_eq_true, if_true, hn]
    exact counter_sub_one_toNat _ hd

end Envelope

end Sys2Proof.Machine
end

