-- ==== Sys2Proof/Laws/Exec.lean ====
section
/-! SUPPORT. The meanings as equations, and how runs unfold. -/

namespace Sys2Proof.Machine

variable (c : Chan) (s : State)

/-! ### One equation per command -/

theorem exec_swpTick :
    exec (.swpTick c) s = .next
      (((s.setSwp c (s.ch c).swp.maintainDivider).setPeriod c
        ((s.ch c).swp.newPeriod (Config.negatePolarity c) (s.ch c).period)).answer
        (.response (tickResponse (s.muted c)
          ((s.ch c).swp.newPeriod (Config.negatePolarity c) (s.ch c).period)))) := rfl

theorem exec_envTick :
    exec (.envTick c) s = .next ((s.setEnv c (s.ch c).env.onQuarterFrameClock).answer .nothing) := rfl

theorem exec_divClk_sweep :
    exec (.divClk (.sweep c)) s = .next
      ((s.setSwp c { (s.ch c).swp with div := ((s.ch c).swp.div.clock (s.ch c).swp.dividerPeriod).1 }).answer
        (.fired ((s.ch c).swp.div.clock (s.ch c).swp.dividerPeriod).2)) := rfl

theorem exec_divClk_envelope :
    exec (.divClk (.envelope c)) s = .next
      ((s.setEnv c { (s.ch c).env with div := ((s.ch c).env.div.clock (s.ch c).env.V).1 }).answer
        (.fired ((s.ch c).env.div.clock (s.ch c).env.V).2)) := rfl

/-! ### What a command can do, said once -/

/-- The channel record of `c` after a command, from that record alone (R138). -/
def channelAfter (i : Instr) (c : Chan) (k : Channel) : Channel :=
  match i with
  | .swpTick c' =>
    if c' = c then
      { k with
        period := k.swp.newPeriod (Config.negatePolarity c) k.period
        swp := k.swp.maintainDivider }
    else k
  | .swpWr c' e p n sh => if c' = c then { k with swp := k.swp.onRegisterWrite e p n sh } else k
  | .swpMute _ => k
  | .swpTgt _ => k
  | .swpChg _ => k
  | .perWr c' p => if c' = c then { k with period := p } else k
  | .perRd _ => k
  | .envTick c' => if c' = c then { k with env := k.env.onQuarterFrameClock } else k
  | .envWr c' l cv v => if c' = c then { k with env := k.env.configure l cv v } else k
  | .envStart c' => if c' = c then { k with env := k.env.setStartFlag } else k
  | .envVol _ => k
  | .rst => Channel.reset
  | .divClk (.sweep c') =>
    if c' = c then { k with swp := { k.swp with div := (k.swp.div.clock k.swp.dividerPeriod).1 } } else k
  | .divClk (.envelope c') =>
    if c' = c then { k with env := { k.env with div := (k.env.div.clock k.env.V).1 } } else k
  | .divRld (.sweep c') =>
    if c' = c then { k with swp := { k.swp with div := ⟨k.swp.dividerPeriod⟩ } } else k
  | .divRld (.envelope c') =>
    if c' = c then { k with env := { k.env with div := ⟨k.env.V⟩ } } else k

/-- What a command answers, from the channel records alone (R61, R75). -/
def answerOf (i : Instr) (f : Chan → Channel) : Output :=
  match i with
  | .swpTick c => .response (tickResponse (isMuted (Config.negatePolarity c) (f c).swp (f c).period)
      ((f c).swp.newPeriod (Config.negatePolarity c) (f c).period))
  | .swpMute c => .response (zext16 (isMuted (Config.negatePolarity c) (f c).swp (f c).period).toNat)
  | .swpTgt c =>
    .response (zext16 (computeTargetPeriod (Config.negatePolarity c) (f c).swp (f c).period).toNat)
  | .swpChg c => .response (sext16 (computeChangeAmount (Config.negatePolarity c) (f c).swp (f c).period))
  | .perRd c => .response (zext16 (f c).period.toNat)
  | .envVol c => .response (zext16 (getVolume (f c).env).toNat)
  | .divClk (.sweep c) => .fired ((f c).swp.div.clock (f c).swp.dividerPeriod).2
  | .divClk (.envelope c) => .fired ((f c).env.div.clock (f c).env.V).2
  | .swpWr _ _ _ _ _ => .nothing
  | .perWr _ _ => .nothing
  | .envTick _ => .nothing
  | .envWr _ _ _ _ => .nothing
  | .envStart _ => .nothing
  | .rst => .nothing
  | .divRld _ => .nothing

/-- Every channel record after a command that answers a next state. -/
theorem ch_of_exec {i : Instr} {s t : State} (h : exec i s = .next t) (c : Chan) :
    t.ch c = channelAfter i c (s.ch c) := by
  cases i with
  | divClk d => cases d <;> cases h <;> rename_i c' <;> cases c <;> cases c' <;> rfl
  | divRld d => cases d <;> cases h <;> rename_i c' <;> cases c <;> cases c' <;> rfl
  | rst => cases h; cases c <;> rfl
  | swpTick c' => cases h; cases c <;> cases c' <;> rfl
  | swpWr c' => cases h; cases c <;> cases c' <;> rfl
  | perWr c' => cases h; cases c <;> cases c' <;> rfl
  | envTick c' => cases h; cases c <;> cases c' <;> rfl
  | envWr c' => cases h; cases c <;> cases c' <;> rfl
  | envStart c' => cases h; cases c <;> cases c' <;> rfl
  | swpMute => cases h; cases c <;> rfl
  | swpTgt => cases h; cases c <;> rfl
  | swpChg => cases h; cases c <;> rfl
  | perRd => cases h; cases c <;> rfl
  | envVol => cases h; cases c <;> rfl

/-- What was answered, after a command that answers a next state. -/
theorem out_of_exec {i : Instr} {s t : State} (h : exec i s = .next t) : t.out = answerOf i s.ch := by
  cases i with
  | divClk d => cases d <;> cases h <;> rfl
  | divRld d => cases d <;> cases h <;> rfl
  | _ => cases h; rfl

/-- A command takes none of the inputs still to come. -/
theorem inputs_of_exec {i : Instr} {s t : State} (h : exec i s = .next t) : t.inputs = s.inputs := by
  cases i with
  | divClk d => cases d <;> cases h <;> simp
  | divRld d => cases d <;> cases h <;> simp
  | _ => cases h; simp

/-! ### Runs -/

@[simp] theorem execAll_nil : execAll [] s = .next s := rfl

/-- A command that answers a next state hands it to the rest of the run. -/
theorem execAll_cons_of_next {i : Instr} {s t : State} (h : exec i s = .next t) (is : List Instr) :
    execAll (i :: is) s = execAll is t := by simp [execAll, h]

/-- A run of two parts is the second part from where the first one ended. -/
theorem execAll_append_of_next {is : List Instr} {s t : State} (h : execAll is s = .next t) (js : List Instr) :
    execAll (is ++ js) s = execAll js t := by
  induction is generalizing s with
  | nil => simp_all
  | cons i is ih =>
    simp only [execAll, List.cons_append] at h ⊢
    cases hi : exec i s with
    | next r => simp only [hi] at h; exact ih h
    | fault r => simp [hi] at h
    | refused r => simp [hi] at h

@[simp] theorem execTimes_zero (i : Instr) : execTimes 0 i s = .next s := rfl

/-- The last of `n + 1` equal commands runs from where the first `n` ended. -/
theorem execTimes_succ_of_next {i : Instr} {s t : State} {n : Nat} (h : execTimes n i s = .next t) :
    execTimes (n + 1) i s = exec i t := by
  unfold execTimes at *
  rw [List.replicate_succ', execAll_append_of_next h]
  simp only [execAll]
  cases exec i t <;> rfl

/-! ### Steps -/

/-- A step on an input that decodes to an instruction runs it. -/
theorem step_sendNext_of_instr {inp : Input} {i : Instr} (h : decodeInput inp = .instr i) :
    step (sendNext s inp) = exec i s := by simp [step, h]

/-- What a step can do: nothing was sent; an instruction runs; a port idles; or a reserved input is refused. -/
theorem step_cases :
    (s.inputs = [] ∧ step s = .next s) ∨
    ∃ inp rest, s.inputs = inp :: rest ∧
      ((∃ i, decodeInput inp = .instr i ∧ step s = exec i { s with inputs := rest }) ∨
       (∃ d, decodeInput inp = .idle d ∧ step s = .next { s with inputs := rest, out := .fired false }) ∨
       (∃ w, decodeInput inp = .reservedWord w ∧ step s = .refused (.reservedWord w)) ∨
       (∃ d, decodeInput inp = .reservedSelect d ∧ step s = .refused (.reservedSelect d))) := by
  cases hin : s.inputs with
  | nil => exact .inl ⟨rfl, by simp [step, hin, idleBlock]⟩
  | cons inp rest =>
    refine .inr ⟨inp, rest, rfl, ?_⟩
    have ht := takeInput_cons s hin
    cases hd : decodeInput inp with
    | instr i => exact .inl ⟨i, rfl, by simp [step, ht, hd]⟩
    | idle d => exact .inr (.inl ⟨d, rfl, by simp [step, ht, hd, idlePort, State.answer]⟩)
    | reservedWord w => exact .inr (.inr (.inl ⟨w, rfl, by simp [step, ht, hd]⟩))
    | reservedSelect d => exact .inr (.inr (.inr ⟨d, rfl, by simp [step, ht, hd]⟩))

end Sys2Proof.Machine
end

