-- ==== Sys2Proof/Laws/PerInstr.lean ====
section
/-! SUPPORT. A fact about every instruction as syntax: the bits `encode` gives it match its own row of the opcode
table (R63, R66). -/

namespace Sys2Proof.Laws.MatchesRow

/-- The encoding of the instruction is accepted by the row of its mnemonic. -/
def Statement (i : Instr) : Prop :=
  match encode i with
  | .cmd w => ∃ r ∈ cmd16Rows, r.mnemonic = i.mnemonic ∧ r.accepts w = true
  | .dp2 _ sel => sel = 1 ∧ i.mnemonic = .divClk ∨ sel = 2 ∧ i.mnemonic = .divRld
  | .resetSignal => False

/-- The payloads stay inside their bits (R57). -/
theorem swpWrPayload_lt (e : Bool) (p : BitVec 3) (n : Bool) (s : BitVec 3) :
    (swpWrPayload e p n s).toNat < 256 := by
  have h : ∀ p s : BitVec 3, (swpWrPayload e p n s).toNat < 256 := by
    cases e <;> cases n <;> decide +kernel
  exact h p s

theorem envWrPayload_lt (l cv : Bool) (v : BitVec 4) : (envWrPayload l cv v).toNat < 64 := by
  have h : ∀ v : BitVec 4, (envWrPayload l cv v).toNat < 64 := by
    cases l <;> cases cv <;> decide
  exact h v

theorem swpTick (c : Chan) : Statement (.swpTick c) := by
  revert c; rintro (_ | _) <;> simp only [Statement, encode, Instr.mnemonic] <;> decide
theorem swpWr (c : Chan) (e : Bool) (p : BitVec 3) (n : Bool) (s : BitVec 3) :
    Statement (.swpWr c e p n s) := by
  refine ⟨_, .tail _ (.head _), rfl, ?_⟩
  exact (mask_swpWr 2#4 2#4 (chanBit c) (swpWrPayload e p n s)).trans (by simp [swpWrPayload_lt])
theorem swpMute (c : Chan) : Statement (.swpMute c) := by
  revert c; rintro (_ | _) <;> simp only [Statement, encode, Instr.mnemonic] <;> decide
theorem swpTgt (c : Chan) : Statement (.swpTgt c) := by
  revert c; rintro (_ | _) <;> simp only [Statement, encode, Instr.mnemonic] <;> decide
theorem swpChg (c : Chan) : Statement (.swpChg c) := by
  revert c; rintro (_ | _) <;> simp only [Statement, encode, Instr.mnemonic] <;> decide
theorem perWr (c : Chan) (t : Period) : Statement (.perWr c t) := by
  refine ⟨_, .tail _ (.tail _ (.tail _ (.tail _ (.tail _ (.head _))))), rfl, ?_⟩
  exact (mask_perWr 6#4 6#4 (chanBit c) t).trans (by simp)
theorem perRd (c : Chan) : Statement (.perRd c) := by
  revert c; rintro (_ | _) <;> simp only [Statement, encode, Instr.mnemonic] <;> decide
theorem envTick (c : Chan) : Statement (.envTick c) := by
  revert c; rintro (_ | _) <;> simp only [Statement, encode, Instr.mnemonic] <;> decide
theorem envWr (c : Chan) (l cv : Bool) (v : BitVec 4) : Statement (.envWr c l cv v) := by
  refine ⟨_, .tail _ (.tail _ (.tail _ (.tail _ (.tail _ (.tail _ (.tail _ (.tail _ (.head _)))))))), rfl, ?_⟩
  exact (mask_envWr 9#4 9#4 (chanBit c) (envWrPayload l cv v)).trans (by simp [envWrPayload_lt])
theorem envStart (c : Chan) : Statement (.envStart c) := by
  revert c; rintro (_ | _) <;> simp only [Statement, encode, Instr.mnemonic] <;> decide
theorem envVol (c : Chan) : Statement (.envVol c) := by
  revert c; rintro (_ | _) <;> simp only [Statement, encode, Instr.mnemonic] <;> decide
theorem rst : Statement .rst := by
  simp only [Statement, encode, Instr.mnemonic]; decide
theorem divClk (d : DividerId) : Statement (.divClk d) := .inl ⟨rfl, rfl⟩
theorem divRld (d : DividerId) : Statement (.divRld d) := .inr ⟨rfl, rfl⟩

end Sys2Proof.Laws.MatchesRow
end

