-- ==== Sys2Proof/Tests/Slice0.lean ====
section
/-! SUPPORT. Small tests, whose expected values are the vectors and worked encodings of spec/ (each named in its
comment), and for every statement with hypotheses a witness that meets them. -/

namespace Sys2Proof.Tests

open Sys2Proof.Machine

/-! ### Helpers -/

/-- A SweepUnit in the column order of spec/95_test_vectors.md: E S N P cnt rl. -/
def swp (e : Bool) (s : BitVec 3) (n : Bool) (p cnt : BitVec 3) (rl : Bool) : Sweep :=
  { enabled := e, shiftCount := s, negateFlag := n, dividerPeriod := p, div := ⟨cnt⟩, reloadFlag := rl }

/-- An EnvelopeGenerator in the column order of spec/95_test_vectors.md: st V cnt dec L C. -/
def env (st : Bool) (v cnt dec : BitVec 4) (l cv : Bool) : Envelope :=
  { startFlag := st, V := v, div := ⟨cnt⟩, decayLevelCounter := dec, loopFlag := l, constantVolumeFlag := cv }

/-- A state whose two channels hold the same. -/
def both (p : Period) (u : Sweep) (g : Envelope) : State :=
  { ch0 := ⟨p, u, g⟩, ch1 := ⟨p, u, g⟩, inputs := [], out := .nothing }

/-- A SweepUnit and an EnvelopeGenerator at rest. -/
def swp0 : Sweep := swp false 0 false 0 0 false
def env0 : Envelope := env false 0 0 0 false false

/-- What one command answers, and the channel it leaves. -/
def run (i : Instr) (c : Chan) (s : State) : Option (Output × Channel) :=
  match exec i s with
  | .next t => some (t.out, t.ch c)
  | _ => none

/-! ### Well-formedness: an ill-formed term for each check -/

theorem test_wf_channel_out_of_range : AsmCmd.wf ⟨.swpTick, [2]⟩ = false := by decide
theorem test_wf_channel_out_of_range_mute : AsmCmd.wf ⟨.swpMute, [2]⟩ = false := by decide
theorem test_wf_channel_out_of_range_tgt : AsmCmd.wf ⟨.swpTgt, [2]⟩ = false := by decide
theorem test_wf_channel_out_of_range_chg : AsmCmd.wf ⟨.swpChg, [2]⟩ = false := by decide
theorem test_wf_channel_out_of_range_perRd : AsmCmd.wf ⟨.perRd, [2]⟩ = false := by decide
theorem test_wf_channel_out_of_range_envTick : AsmCmd.wf ⟨.envTick, [2]⟩ = false := by decide
theorem test_wf_channel_out_of_range_envStart : AsmCmd.wf ⟨.envStart, [2]⟩ = false := by decide
theorem test_wf_channel_out_of_range_envVol : AsmCmd.wf ⟨.envVol, [2]⟩ = false := by decide
theorem test_wf_swpWr_operands :
    AsmCmd.wf ⟨.swpWr, [2, 1, 7, 1, 7]⟩ = false ∧ AsmCmd.wf ⟨.swpWr, [1, 2, 7, 1, 7]⟩ = false ∧
    AsmCmd.wf ⟨.swpWr, [1, 1, 8, 1, 7]⟩ = false ∧ AsmCmd.wf ⟨.swpWr, [1, 1, 7, 2, 7]⟩ = false ∧
    AsmCmd.wf ⟨.swpWr, [1, 1, 7, 1, 8]⟩ = false ∧ AsmCmd.wf ⟨.swpWr, [1, 1, 7, 1, 7]⟩ = true := by decide
theorem test_wf_perWr_operands :
    AsmCmd.wf ⟨.perWr, [2, 2047]⟩ = false ∧ AsmCmd.wf ⟨.perWr, [1, 2048]⟩ = false ∧
    AsmCmd.wf ⟨.perWr, [1, 2047]⟩ = true := by decide
theorem test_wf_envWr_operands :
    AsmCmd.wf ⟨.envWr, [2, 1, 1, 15]⟩ = false ∧ AsmCmd.wf ⟨.envWr, [1, 2, 1, 15]⟩ = false ∧
    AsmCmd.wf ⟨.envWr, [1, 1, 2, 15]⟩ = false ∧ AsmCmd.wf ⟨.envWr, [1, 1, 1, 16]⟩ = false ∧
    AsmCmd.wf ⟨.envWr, [1, 1, 1, 15]⟩ = true := by decide
theorem test_wf_operand_count :
    AsmCmd.wf ⟨.rst, [0]⟩ = false ∧ AsmCmd.wf ⟨.divClk, [0]⟩ = false ∧
    AsmCmd.wf ⟨.divRld, [0]⟩ = false ∧
    AsmCmd.wf ⟨.swpTick, []⟩ = false ∧ AsmCmd.wf ⟨.perWr, [1]⟩ = false := by decide
/-- R64, opcode by opcode: a must-be-zero bit set, `RST` with `c = 1`, an undefined opcode. -/
theorem test_wf_words :
    [0x1001, 0x3001, 0x4400, 0x5001, 0x7001, 0x8001, 0xA001, 0xB001, 0x2100, 0x2400, 0x9040, 0x9400, 0xC001,
      0xC800, 0x0000, 0x0800, 0xD000, 0xE123, 0xFFFF].all (fun w => !definedWord w) = true := by decide
/-- R66: both strobes at once. -/
theorem test_wf_select :
    definedInput (.dp2 (.sweep .ch0) 3) = false ∧ definedInput (.dp2 (.envelope .ch1) 0) = true := by decide

/-! ### Decoding: words written out from the encodings of R63 and R66 -/

/-- Vectors V-X1 to V-X24 and R72: every CMD16 row. -/
theorem test_decode_swpTick : decodeCmd16 0b0001_1_000_0000_0000 = .instr (.swpTick .ch1) := by decide
theorem test_decode_swpWr :
    decodeCmd16 0b0010_0_000_1_010_1_010 = .instr (.swpWr .ch0 true 2 true 2) := by decide
theorem test_decode_swpWr_asymmetric :
    decodeCmd16 0b0010_1_000_0_100_0_001 = .instr (.swpWr .ch1 false 4 false 1) := by decide
theorem test_decode_swpMute : decodeCmd16 0b0011_1_000_0000_0000 = .instr (.swpMute .ch1) := by decide
theorem test_decode_swpTgt : decodeCmd16 0b0100_0_000_0000_0000 = .instr (.swpTgt .ch0) := by decide
theorem test_decode_swpChg : decodeCmd16 0b0101_1_000_0000_0000 = .instr (.swpChg .ch1) := by decide
theorem test_decode_perWr : decodeCmd16 0b0110_1_000_0110_0100 = .instr (.perWr .ch1 100) := by decide
theorem test_decode_perRd : decodeCmd16 0b0111_0_000_0000_0000 = .instr (.perRd .ch0) := by decide
theorem test_decode_envTick : decodeCmd16 0b1000_1_000_0000_0000 = .instr (.envTick .ch1) := by decide
theorem test_decode_envWr :
    decodeCmd16 0b1001_0_000_00_1_0_0101 = .instr (.envWr .ch0 true false 5) := by decide
theorem test_decode_envStart : decodeCmd16 0b1010_1_000_0000_0000 = .instr (.envStart .ch1) := by decide
theorem test_decode_envVol : decodeCmd16 0b1011_0_000_0000_0000 = .instr (.envVol .ch0) := by decide
theorem test_decode_rst : decodeCmd16 0b1100_0_000_0000_0000 = .instr .rst := by decide
theorem test_decode_dp2 :
    decodeDp2 (.envelope .ch1) 0b00 = .idle (.envelope .ch1) ∧
    decodeDp2 (.envelope .ch1) 0b01 = .instr (.divClk (.envelope .ch1)) ∧
    decodeDp2 (.envelope .ch1) 0b10 = .instr (.divRld (.envelope .ch1)) ∧
    decodeDp2 (.envelope .ch1) 0b11 = .reservedSelect (.envelope .ch1) := by decide
theorem test_decode_reserved :
    [0x1001, 0x2100, 0x7001, 0x9040, 0xC800, 0x0000, 0x0800, 0xD000, 0xE123, 0xFFFF].all
      (fun w => decodeCmd16 w == .reservedWord w) = true := by decide
/-- R63: the rows are pairwise disjoint. -/
theorem test_rows_disjoint :
    (cmd16Rows.map (fun r => (r.bits, r.mask))).Pairwise
      (fun r r' => r.1 &&& (r.2 &&& r'.2) ≠ r'.1 &&& (r.2 &&& r'.2)) := by decide
/-- R72. -/
theorem test_encode_worked :
    encode (.swpWr .ch0 false 2 true 2) = .cmd 0x202A ∧ encode (.envWr .ch1 false false 1) = .cmd 0x9801 ∧
    encode (.perWr .ch0 1024) = .cmd 0x6400 ∧ encode .rst = .cmd 0xC000 := by decide
/-- The table's numbering: a DP2 row is one byte, a CMD16 row two. -/
theorem test_table_word :
    decodeTableWord 8 1 = some (.divClk tablePort) ∧ decodeTableWord 8 2 = some (.divRld tablePort) ∧
    decodeTableWord 16 0x28FF = some (.swpWr .ch1 true 7 true 7) ∧ decodeTableWord 8 3 = none ∧
    decodeTableWord 16 0 = none := by decide

/-! ### Single steps, from the vectors -/

/-- V-D1 and V-D3, first operations. -/
theorem test_divClk_reloads :
    run (.divClk (.envelope .ch0)) .ch0 (both 0 swp0 (env false 3 0 0 false false)) =
      some (.fired true, ⟨0, swp0, env false 3 3 0 false false⟩) := by decide
theorem test_divClk_above_period :
    run (.divClk (.sweep .ch1)) .ch1 (both 0 (swp false 0 false 2 7 false) env0) =
      some (.fired false, ⟨0, swp false 0 false 2 6 false, env0⟩) := by decide
/-- V-D4. -/
theorem test_divRld :
    run (.divRld (.sweep .ch0)) .ch0 (both 0 (swp false 0 false 5 2 false) env0) =
      some (.nothing, ⟨0, swp false 0 false 5 5 false, env0⟩) := by decide
theorem test_divRld_at_zero :
    run (.divRld (.envelope .ch1)) .ch1 (both 0 swp0 (env false 7 0 3 true false)) =
      some (.nothing, ⟨0, swp0, env false 7 7 3 true false⟩) := by decide
/-- V-T2 and V-T21 on channel 0. -/
theorem test_swpChg_ones_complement :
    (run (.swpChg .ch0) .ch0 (both 100 (swp false 1 true 0 0 false) env0)).map Prod.fst =
      some (.response 0xFFCD) := by decide
theorem test_swpChg_extreme :
    (run (.swpChg .ch0) .ch0 (both 2047 (swp false 0 true 0 0 false) env0)).map Prod.fst =
      some (.response 0xF800) := by decide
/-- V-T20 and V-T3 on channel 0. -/
theorem test_swpTgt_not_truncated :
    (run (.swpTgt .ch1) .ch1 (both 2047 (swp false 0 false 0 0 false) env0)).map Prod.fst =
      some (.response 0x0FFE) := by decide
theorem test_swpTgt_clamped :
    (run (.swpTgt .ch0) .ch0 (both 20 (swp false 0 true 0 0 false) env0)).map Prod.fst =
      some (.response 0) := by decide
/-- V-T12 and V-T13. -/
theorem test_swpMute_at_2047 :
    (run (.swpMute .ch0) .ch0 (both 1365 (swp false 1 false 0 0 false) env0)).map Prod.fst =
      some (.response 0) := by decide
theorem test_swpMute_above_2047 :
    (run (.swpMute .ch0) .ch0 (both 1366 (swp false 1 false 0 0 false) env0)).map Prod.fst =
      some (.response 1) := by decide
/-- V-S10: `reloadFlag` and counter 0, update and reload. -/
theorem test_swpTick_update_and_reload :
    run (.swpTick .ch1) .ch1 (both 100 (swp true 1 false 5 0 true) env0) =
      some (.response 0x0096, ⟨150, swp true 1 false 5 5 false, env0⟩) := by decide
/-- V-S8: muted, the divider decrements all the same. -/
theorem test_swpTick_muted :
    run (.swpTick .ch1) .ch1 (both 1500 (swp true 1 false 3 2 false) env0) =
      some (.response 0x0DDC, ⟨1500, swp true 1 false 3 1 false, env0⟩) := by decide
/-- V-W2 and V-W4. -/
theorem test_swpWr :
    run (.swpWr .ch0 true 2 true 2) .ch0 (both 9 (swp true 1 false 3 2 false) env0) =
      some (.nothing, ⟨9, swp true 2 true 2 2 true, env0⟩) := by decide
theorem test_swpWr_keeps_counter :
    run (.swpWr .ch1 false 2 false 0) .ch1 (both 9 (swp true 1 false 7 7 false) env0) =
      some (.nothing, ⟨9, swp false 0 false 2 7 true, env0⟩) := by decide
/-- V-P1: nothing but the period, not even `reloadFlag`; the other channel stays. -/
theorem test_perWr :
    run (.perWr .ch1 100) .ch1 (both 5 swp0 env0) = some (.nothing, ⟨100, swp0, env0⟩) := by decide
theorem test_perWr_other_channel :
    run (.perWr .ch1 100) .ch0 (both 5 swp0 env0) = some (.nothing, ⟨5, swp0, env0⟩) := by decide
/-- V-P2. -/
theorem test_perRd :
    run (.perRd .ch1) .ch1 (both 100 swp0 env0) = some (.response 0x0064, ⟨100, swp0, env0⟩) := by decide
/-- V-E2 and V-E8. -/
theorem test_envTick_restart :
    run (.envTick .ch0) .ch0 (both 0 swp0 (env true 3 2 7 false false)) =
      some (.nothing, ⟨0, swp0, env false 3 3 15 false false⟩) := by decide
theorem test_envTick_loop :
    run (.envTick .ch1) .ch1 (both 0 swp0 (env false 3 0 0 true false)) =
      some (.nothing, ⟨0, swp0, env false 3 3 15 true false⟩) := by decide
/-- V-N2. -/
theorem test_envWr :
    run (.envWr .ch0 true true 5) .ch0 (both 0 swp0 (env false 0 4 14 true false)) =
      some (.nothing, ⟨0, swp0, env false 5 4 14 true true⟩) := by decide
/-- V-N5. -/
theorem test_envStart :
    run (.envStart .ch0) .ch0 (both 0 swp0 (env false 3 2 7 false false)) =
      some (.nothing, ⟨0, swp0, env true 3 2 7 false false⟩) := by decide
/-- V-N3 and V-N4. -/
theorem test_envVol_constant :
    (run (.envVol .ch0) .ch0 (both 0 swp0 (env false 5 4 12 true true))).map Prod.fst =
      some (.response 0x0005) := by decide
theorem test_envVol_decay :
    (run (.envVol .ch0) .ch0 (both 0 swp0 (env false 5 4 12 true false))).map Prod.fst =
      some (.response 0x000C) := by decide
/-- V-P7: the reset state, whatever the open parameter is. -/
theorem test_rst (p : Period) (u : Sweep) (g : Envelope) :
    run .rst .ch1 (both p u g) = some (.nothing, ⟨Config.resetChPeriod, swp0, env0⟩) := rfl
/-- V-W6: a reserved word is refused, and takes no step. -/
theorem test_step_refuses :
    step (sendNext (both 0 swp0 env0) (.cmd 0x2100)) = .refused (.reservedWord 0x2100) := rfl
/-- Program P1, line 4, as a step. -/
theorem test_step :
    step (sendNext (both 100 (swp true 1 false 0 0 true) env0) (.cmd 0x1800)) =
      .next { both 100 (swp true 1 false 0 0 true) env0 with
        ch1 := ⟨150, swp true 1 false 0 0 false, env0⟩, out := .response 0x0096 } := rfl

/-! ### The assembler's text (R68, R69) and the fixed-width realisation (R95) -/

theorem test_asm_line :
    parseLine ("  SWP.WR 1, 1, 0x0, 0, 1 ; enable".toList) = some (.cmd ⟨.swpWr, [1, 1, 0, 0, 1]⟩) := by decide
theorem test_asm_program :
    assembleText tablePort "RST\nHQFT\nPER.WR 1, 0x64".toList =
      some [.rst, .envTick .ch0, .envTick .ch1, .swpTick .ch0, .swpTick .ch1, .perWr .ch1 100] := by decide
/-- The model's choice (log entry 10): a source line carries no response. -/
theorem test_asm_no_response : parseLine "SWP.TICK 1 -> 0x0096".toList = none := by decide
theorem test_asm_error : assembleText tablePort "PER.WR 0, 2048".toList = none := by decide
/-- R68: `SWP.TICK 1 -> 0x0096`. -/
theorem test_asm_response : showWord 0x0096 = "0x0096".toList := by decide
/-- V-T3: the clamp acts on channel 0 only. -/
theorem test_adder :
    adderTarget .onesComplement (swp false 0 true 0 0 false) 20 = 0 ∧
    adderTarget .twosComplement (swp false 1 true 0 0 false) 100 = 50 := by decide

/-! ### Witnesses: concrete states that meet the hypotheses of each statement that has some -/

theorem witness_DividerFiresOncePerPeriodPlusOne :
    (both 0 (swp false 0 false 7 7 false) env0).counter (.sweep .ch0) =
      (both 0 (swp false 0 false 7 7 false) env0).dividerInput (.sweep .ch0) ∧
    (both 0 swp0 (env false 15 15 0 false false)).counter (.envelope .ch1) =
      (both 0 swp0 (env false 15 15 0 false false)).dividerInput (.envelope .ch1) := by decide

/-- The bound is met with equality, and the tick fires no reload. -/
theorem witness_OnlyEnvWrBreaksTheEnvelopeBound :
    (∀ l cv v, Instr.envTick .ch0 ≠ .envWr .ch0 l cv v) ∧
    (both 0 swp0 (env false 9 9 4 false false)).counter (.envelope .ch0) ≤
      (both 0 swp0 (env false 9 9 4 false false)).dividerInput (.envelope .ch0) ∧
    exec (.envTick .ch0) (both 0 swp0 (env false 9 9 4 false false)) =
      .next { both 0 swp0 (env false 9 9 4 false false) with
        ch0 := ⟨0, swp0, env false 9 8 4 false false⟩ } := by
  refine ⟨fun _ _ _ h => ?_, by decide, rfl⟩
  cases h

/-- Both clauses at their boundaries: the clamp acts at shift 0 and not at shift 1, periods 7 and 8. -/
theorem witness_NegateNeverMutesByOverflow :
    (swp false 0 true 0 0 false).negateFlag = true ∧
    computeTargetPeriod .onesComplement (swp false 0 true 0 0 false) 2047 = 0 ∧
    computeTargetPeriod .onesComplement (swp false 1 true 0 0 false) 2047 = 1023 ∧
    isMuted .onesComplement (swp false 1 true 0 0 false) 7 = true ∧
    isMuted .onesComplement (swp false 1 true 0 0 false) 8 = false := by decide

/-- V-T10, V-T11, V-T16, V-T17 and the period 7. -/
theorem witness_MuteThresholdsPerShiftCount :
    (swp false 0 false 0 0 false).negateFlag = false ∧ (swp false 7 false 0 0 false).negateFlag = false ∧
    isMuted .onesComplement (swp false 0 false 0 0 false) 7 = true ∧
    isMuted .onesComplement (swp false 0 false 0 0 false) 1023 = false ∧
    isMuted .onesComplement (swp false 0 false 0 0 false) 1024 = true ∧
    isMuted .twosComplement (swp false 7 false 0 0 false) 2032 = false ∧
    isMuted .twosComplement (swp false 7 false 0 0 false) 2033 = true := by decide

/-- Different channels, `enabled`, dividers and reload flags; negate set. -/
theorem witness_MuteDependsOnPeriodShiftNegateOnly :
    ((both 100 (swp true 1 true 7 3 true) env0).ch .ch0).period =
      ((both 100 (swp false 1 true 0 0 false) env0).ch .ch1).period ∧
    ((both 100 (swp true 1 true 7 3 true) env0).ch .ch0).swp.shiftCount =
      ((both 100 (swp false 1 true 0 0 false) env0).ch .ch1).swp.shiftCount ∧
    ((both 100 (swp true 1 true 7 3 true) env0).ch .ch0).swp.negateFlag =
      ((both 100 (swp false 1 true 0 0 false) env0).ch .ch1).swp.negateFlag := by decide

/-- V-S13: the tick changes the period, to the least value it can store. -/
theorem witness_NewPeriodIsAlwaysLegal :
    run (.swpTick .ch0) .ch0 (both 8 (swp true 1 true 0 0 false) env0) =
      some (.response 3, ⟨3, swp true 1 true 0 0 false, env0⟩) := by decide

/-- An enabled, unmuted sweep with a shift, just reloaded with the largest period. -/
theorem witness_SweepUpdatesOncePerPeriodPlusOne :
    ((both 500 (swp true 1 false 7 7 false) env0).ch .ch0).swp.div.counter =
      ((both 500 (swp true 1 false 7 7 false) env0).ch .ch0).swp.dividerPeriod ∧
    ((both 500 (swp true 1 false 7 7 false) env0).ch .ch0).swp.reloadFlag = false ∧
    (both 500 (swp true 1 false 7 7 false) env0).muted .ch0 = false := by decide

/-- V-S7 and V-S6: muted by overflow, and by a period below 8, with the sweep enabled. -/
theorem witness_MutedSweepStaysFrozen :
    (both 1500 (swp true 1 false 3 0 false) env0).muted .ch1 = true ∧
    (both 7 (swp true 1 true 3 0 false) env0).muted .ch1 = true := by decide

/-- The bound met with equality, no reload pending; the step is a tick. -/
theorem witness_StepKeepsSweepDividersBounded :
    (sendNext (both 100 (swp true 1 false 3 3 false) env0) (.cmd 0x1000)).Inv ∧
    ∃ t, step (sendNext (both 100 (swp true 1 false 3 3 false) env0) (.cmd 0x1000)) = .next t := by
  refine ⟨fun c => ?_, _, rfl⟩
  cases c <;> exact fun _ => by decide

theorem witness_DecayStepsEveryPeriodPlusOneToZero :
    ((both 0 swp0 (env false 1 0 3 false false)).ch .ch1).env.loopFlag = false := by decide

theorem witness_LoopingDecayRepeats :
    ((both 0 swp0 (env false 1 0 3 true false)).ch .ch1).env.loopFlag = true := by decide

/-- R167's example: the counter 8 above the new `V` of 2. -/
theorem witness_EnvWrActsAtTheNextReload :
    ((both 0 swp0 (env false 9 8 15 false false)).ch .ch0).env.startFlag = false ∧
    (both 0 swp0 (env false 9 8 15 false false)).counter (.envelope .ch0) = 8 := by decide

theorem witness_PeriodBelowEightMutesAtOnce : (0 : Period).toNat < 8 ∧ (7 : Period).toNat < 8 := by decide

/-- Every field is changed by one of its writers, so that no clause is empty. -/
theorem witness_OnlyTheListedWritersChangeAField :
    run (.perWr .ch0 9) .ch0 (both 8 swp0 env0) = some (.nothing, ⟨9, swp0, env0⟩) ∧
    run (.swpTick .ch0) .ch0 (both 100 (swp true 1 false 5 0 true) env0) =
      some (.response 150, ⟨150, swp true 1 false 5 5 false, env0⟩) ∧
    run (.swpWr .ch0 true 7 true 7) .ch0 (both 8 swp0 env0) =
      some (.nothing, ⟨8, swp true 7 true 7 0 true, env0⟩) ∧
    run (.envWr .ch0 true true 15) .ch0 (both 8 swp0 env0) =
      some (.nothing, ⟨8, swp0, env false 15 0 0 true true⟩) ∧
    run (.envStart .ch0) .ch0 (both 8 swp0 env0) =
      some (.nothing, ⟨8, swp0, env true 0 0 0 false false⟩) ∧
    run (.envTick .ch0) .ch0 (both 8 swp0 (env true 3 0 7 false false)) =
      some (.nothing, ⟨8, swp0, env false 3 3 15 false false⟩) := by decide

/-- Two states that agree on one half of the channel only, a command on that half, in both. -/
theorem witness_CommandsStayInsideTheirHalf :
    (footprint (.swpTick .ch0) = some (.ch0, .sweep) ∧
      (run (.swpTick .ch0) .ch0 (both 100 (swp true 1 false 5 0 true) env0)).isSome = true ∧
      (run (.swpTick .ch0) .ch0 (both 100 (swp true 1 false 5 0 true)
        (env true 3 0 7 false false))).isSome = true) ∧
    (footprint (.envTick .ch1) = some (.ch1, .envelope) ∧
      (run (.envTick .ch1) .ch1 (both 100 swp0 (env true 3 0 7 false false))).isSome = true ∧
      (run (.envTick .ch1) .ch1 (both 7 (swp true 1 false 5 0 true)
        (env true 3 0 7 false false))).isSome = true) := by decide

/-- The same channel's two halves; the two channels; two queries of the same half. -/
theorem witness_DisjointCommandsCommute :
    (footprint (.swpTick .ch0) ≠ none ∧ footprint (.envTick .ch0) ≠ none ∧
      footprint (.swpTick .ch0) ≠ footprint (.envTick .ch0)) ∧
    (footprint (.swpTick .ch0) ≠ none ∧ footprint (.swpTick .ch1) ≠ none ∧
      footprint (.swpTick .ch0) ≠ footprint (.swpTick .ch1)) ∧
    (isQuery (.swpMute .ch0) = true ∧ isQuery (.swpTgt .ch0) = true) := by decide

theorem witness_QueriesArePureAndWritesIdempotent :
    isQuery (.envVol .ch1) = true ∧ isIdempotentWrite (.swpWr .ch0 true 7 true 7) = true ∧
    isIdempotentWrite .rst = true := by decide

/-- Program P6's reordering of line 10. -/
theorem witness_PseudoExpansionOrderIsFree :
    [Instr.swpTick .ch1, .envTick .ch1, .swpTick .ch0, .envTick .ch0].Perm Pseudo.hqft.expand := by decide

theorem witness_EncodeInvertsDecode :
    decodeCmd16 0x28FF = .instr (.swpWr .ch1 true 7 true 7) ∧
    decodeDp2 (.sweep .ch1) 2 = .instr (.divRld (.sweep .ch1)) := by decide

theorem witness_RowsDecodeUnambiguously : ∃ r ∈ cmd16Rows, r.accepts 0x20AA = true :=
  ⟨_, .tail _ (.head _), by decide⟩

/-- Each clause at its boundary: the last reserved word of opcode 0 and the first of opcode 0xD; payload 1; payload
256 after 255; payload 64 after 63; `RST` with `c = 1` and payload 0. -/
theorem witness_ReservedWordsAreExactlyRefused :
    decodeCmd16 0x0FFF = .reservedWord 0x0FFF ∧ decodeCmd16 0xD000 = .reservedWord 0xD000 ∧
    decodeCmd16 0x1001 = .reservedWord 0x1001 ∧ decodeCmd16 0xC001 = .reservedWord 0xC001 ∧
    decodeCmd16 0x2100 = .reservedWord 0x2100 ∧ decodeCmd16 0x20FF = .instr (.swpWr .ch0 true 7 true 7) ∧
    decodeCmd16 0x9040 = .reservedWord 0x9040 ∧ decodeCmd16 0x903F = .instr (.envWr .ch0 true true 15) ∧
    decodeCmd16 0xC800 = .reservedWord 0xC800 := by decide

theorem witness_AssembledWordIsTheFormula :
    encode (.swpWr .ch1 true 7 true 7) = .cmd 0x28FF ∧ encode .rst = .cmd 0xC000 := by decide

/-- Each range at its last value inside and its first outside. -/
theorem witness_AssemblerAcceptsExactlyInRange :
    assemble tablePort ⟨.swpWr, [1, 1, 7, 1, 7]⟩ = some (.swpWr .ch1 true 7 true 7) ∧
    assemble tablePort ⟨.swpWr, [1, 1, 8, 1, 7]⟩ = none ∧
    assemble tablePort ⟨.perWr, [1, 2047]⟩ = some (.perWr .ch1 2047) ∧
    assemble tablePort ⟨.perWr, [1, 2048]⟩ = none ∧
    assemble tablePort ⟨.envWr, [1, 1, 1, 15]⟩ = some (.envWr .ch1 true true 15) ∧
    assemble tablePort ⟨.envWr, [1, 1, 1, 16]⟩ = none ∧
    assemble tablePort ⟨.swpTick, [2]⟩ = none ∧ assemble tablePort ⟨.rst, [0]⟩ = none := by decide

theorem witness_DisassembleInvertsAssemble :
    assemble (.envelope .ch1) ⟨.envWr, [0, 1, 0, 5]⟩ = some (.envWr .ch0 true false 5) ∧
    assemble (.envelope .ch1) ⟨.divClk, []⟩ = some (.divClk (.envelope .ch1)) := by decide

theorem witness_AssembleInvertsDisassemble :
    ∀ d, Instr.divClk (.envelope .ch1) = .divClk d ∨ Instr.divClk (.envelope .ch1) = .divRld d →
      d = .envelope .ch1 := by
  rintro d (h | h) <;> cases h
  rfl

theorem witness_StepRunsTheDecodedInstruction :
    ((sendNext (both 0 swp0 env0) (.cmd 0x6864)).inputs = [.cmd 0x6864] ∧
      decodeInput (.cmd 0x6864) = .instr (.perWr .ch1 100)) ∧
    (both 0 swp0 env0).inputs = [] := by decide

theorem witness_WithFetchWordRunsTheRow :
    decodeTableWord 8 1 = some (.divClk tablePort) ∧
    decodeTableWord 16 0x9035 = some (.envWr .ch0 true true 5) := by decide

/-- Two commands, with a reserved word still waiting behind them. -/
theorem witness_RunIsTheFoldOfTheCommands :
    (sendNext (sendNext (sendNext (both 0 swp0 env0) (.cmd 0)) (.cmd 0x1800)) (.cmd 0x6864)).inputs =
      [Instr.perWr .ch1 100, .swpTick .ch1].map encode ++ [.cmd 0] := by decide

theorem witness_OnlyReservedInputsStopTheMachine :
    (sendNext (sendNext (both 0 swp0 env0) (.dp2 (.sweep .ch0) 0)) (.cmd 0x67FF)).definedInputs := by
  intro inp h
  simp only [sendNext, both, List.mem_cons, List.not_mem_nil, or_false] at h
  rcases h with rfl | rfl <;> decide

end Sys2Proof.Tests
end

section
/-! The state after reset (R38): both channels hold the one reset channel record, and that record is the table. -/

namespace Sys2Proof.Machine

/-- R38 gives one table for both channels, so a statement about reset needs no split on the channel. -/
@[simp] theorem State.reset_ch (c : Chan) : State.reset.ch c = Channel.reset := by
  cases c <;> rfl

/-- Settles O1: each channel is the reset record, whose fields R38's table lists; the polarities are R17's. -/
theorem resetStateHasTheTableValues : Obligations.ResetStateHasTheTableValues := by
  unfold Obligations.ResetStateHasTheTableValues
  refine ⟨fun c => ?table, ?polarityCh0, ?polarityCh1⟩
  case table => rw [State.reset_ch, Channel.reset, Sweep.reset, Envelope.reset]
  case polarityCh0 => rfl
  case polarityCh1 => rfl

end Sys2Proof.Machine
end

section
/-! The reserved words (R64): the decoder's verdict follows from the three fields, one lemma for each kind of opcode. -/

namespace Sys2Proof

section ReservedFields

variable (opc : BitVec 4) (b : BitVec 1) (pay : BitVec 11)

@[simp] theorem wordOpc_cmd16 : wordOpc (cmd16 opc b pay) = opc.toNat := by rw [wordOpc, cmd16_opc]

@[simp] theorem wordPay_cmd16 : wordPay (cmd16 opc b pay) = pay := by rw [wordPay, cmd16_pay]

/-- The channel bit is bit 11 (R54). -/
theorem cmd16_getLsbD_eleven : (cmd16 opc b pay).getLsbD 11 = true ↔ b ≠ 0 := by
  rw [cmd16_getLsbD, if_neg (by decide), if_pos rfl]
  revert b
  decide

/-- The kinds of opcode in R55 and R57: undefined, without payload fields, and the four with a layout of their own. -/
theorem opcode_cases :
    opc.toNat ∈ [0x0, 0xD, 0xE, 0xF] ∨ opc.toNat ∈ [0x1, 0x3, 0x4, 0x5, 0x7, 0x8, 0xA, 0xB] ∨
    opc.toNat = 0x2 ∨ opc.toNat = 0x6 ∨ opc.toNat = 0x9 ∨ opc.toNat = 0xC := by
  revert opc
  decide

variable {opc}

theorem decodeFields_of_undefined (h : opc.toNat ∈ [0x0, 0xD, 0xE, 0xF]) :
    decodeFields opc b pay = .reservedWord (cmd16 opc b pay) := by
  simp only [List.mem_cons, List.not_mem_nil, or_false] at h
  rcases h with h | h | h | h <;> simp only [decodeFields, h]

theorem decodeFields_reserved_iff_of_plain (h : opc.toNat ∈ [0x1, 0x3, 0x4, 0x5, 0x7, 0x8, 0xA, 0xB]) :
    decodeFields opc b pay = .reservedWord (cmd16 opc b pay) ↔ pay ≠ 0 := by
  simp only [List.mem_cons, List.not_mem_nil, or_false] at h
  rcases h with h | h | h | h | h | h | h | h <;> simp [decodeFields, h]

theorem decodeFields_reserved_iff_of_swpWr (h : opc.toNat = 0x2) :
    decodeFields opc b pay = .reservedWord (cmd16 opc b pay) ↔ 256 ≤ pay.toNat := by
  simp [decodeFields, h]

theorem decodeFields_ne_reserved_of_perWr (h : opc.toNat = 0x6) (w : Word) :
    decodeFields opc b pay ≠ .reservedWord w := by
  simp [decodeFields, h]

theorem decodeFields_reserved_iff_of_envWr (h : opc.toNat = 0x9) :
    decodeFields opc b pay = .reservedWord (cmd16 opc b pay) ↔ 64 ≤ pay.toNat := by
  simp [decodeFields, h]

theorem decodeFields_reserved_iff_of_rst (h : opc.toNat = 0xC) :
    decodeFields opc b pay = .reservedWord (cmd16 opc b pay) ↔ pay ≠ 0 ∨ b ≠ 0 := by
  simp [decodeFields, h, ← not_and_or, and_comm]

/-- R64's list, read off the fields of a word. -/
theorem decodeFields_reserved_iff :
    decodeFields opc b pay = .reservedWord (cmd16 opc b pay) ↔
      opc.toNat ∈ [0x0, 0xD, 0xE, 0xF] ∨
      opc.toNat ∈ [0x1, 0x3, 0x4, 0x5, 0x7, 0x8, 0xA, 0xB, 0xC] ∧ pay ≠ 0 ∨
      opc.toNat = 0x2 ∧ 256 ≤ pay.toNat ∨
      opc.toNat = 0x9 ∧ 64 ≤ pay.toNat ∨
      opc.toNat = 0xC ∧ b ≠ 0 := by
  rcases opcode_cases opc with hundef | hplain | hswpWr | hperWr | henvWr | hrst
  · simp only [decodeFields_of_undefined b pay hundef, hundef, true_or]
  · rw [decodeFields_reserved_iff_of_plain b pay hplain]
    simp only [List.mem_cons, List.not_mem_nil, or_false] at hplain
    rcases hplain with h | h | h | h | h | h | h | h <;> simp [h]
  · simp [decodeFields_reserved_iff_of_swpWr b pay hswpWr, hswpWr]
  · simp [decodeFields_ne_reserved_of_perWr b pay hperWr, hperWr]
  · simp [decodeFields_reserved_iff_of_envWr b pay henvWr, henvWr]
  · simp [decodeFields_reserved_iff_of_rst b pay hrst, hrst]

end ReservedFields

namespace Machine

/-- A reserved input sent next is refused by name, from every state (R64, R142). -/
theorem step_sendNext_of_reservedWord (s : State) {inp : Input} {w : Word}
    (h : decodeInput inp = .reservedWord w) : step (sendNext s inp) = .refused (.reservedWord w) := by
  simp [step, h]

/-- Settles O47: a word is its three fields, on which the decoder's verdict is R64's list, kind of opcode by kind. -/
theorem reservedWordsAreExactlyRefused : Obligations.ReservedWordsAreExactlyRefused := by
  unfold Obligations.ReservedWordsAreExactlyRefused
  intro w
  refine ⟨?list, fun s h => step_sendNext_of_reservedWord s h⟩
  case list =>
    rw [← cmd16_fields w, decodeCmd16_cmd16, decodeFields_reserved_iff, wordOpc_cmd16, wordPay_cmd16,
      cmd16_getLsbD_eleven]

end Machine

end Sys2Proof
end

section
/-! The Divider's two micro-operations (R75, R76) at its four instances. What an instance does is the shared
operation at its own width; an instance only adds which field is the `period` input (R74). -/

namespace Sys2Proof.Machine

/-- A counter's bits are all zero exactly when it counts zero. -/
theorem counter_eq_zero_iff_toNat {W : Nat} (x : BitVec W) : x = 0#W ↔ x.toNat = 0 := by
  rw [BitVec.toNat_eq, BitVec.toNat_zero]

/-- R75's pseudocode, both branches at once: the counter and the fire are decided by the one test of zero. -/
theorem Divider.clock_eq {W : Nat} (d : Divider W) (p : BitVec W) :
    d.clock p =
      (⟨if d.counter.toNat = 0 then p else d.counter - 1#W⟩, decide (d.counter.toNat = 0)) := by
  by_cases h : d.counter = 0#W
  · have hn : d.counter.toNat = 0 := (counter_eq_zero_iff_toNat _).mp h
    rw [Divider.clock_of_zero d p h, if_pos hn, decide_eq_true hn]
  · have hn : d.counter.toNat ≠ 0 := (counter_eq_zero_iff_toNat _).not.mp h
    rw [Divider.clock_of_ne_zero d p h, if_neg hn, decide_eq_false hn]

theorem exec_divRld_sweep (c : Chan) (s : State) :
    exec (.divRld (.sweep c)) s = .next
      ((s.setSwp c { (s.ch c).swp with div := ⟨(s.ch c).swp.dividerPeriod⟩ }).answer .nothing) := rfl

theorem exec_divRld_envelope (c : Chan) (s : State) :
    exec (.divRld (.envelope c)) s = .next
      ((s.setEnv c { (s.ch c).env with div := ⟨(s.ch c).env.V⟩ }).answer .nothing) := rfl

@[simp] theorem encode_divClk (d : DividerId) : encode (.divClk d) = .dp2 d 1 := rfl
@[simp] theorem encode_divRld (d : DividerId) : encode (.divRld d) = .dp2 d 2 := rfl

/-- Settles O4: each instance clocks its divider with its owner's period field, and `Divider.clock_eq` says what a
clock does at either width. -/
theorem divClkReloadsAtZeroElseDecrements : Obligations.DivClkReloadsAtZeroElseDecrements := by
  unfold Obligations.DivClkReloadsAtZeroElseDecrements
  refine ⟨fun c s => ?sweep, fun c s => ?envelope, encode_divClk⟩
  case sweep =>
    rw [exec_divClk_sweep, Divider.clock_eq]
    rfl
  case envelope =>
    rw [exec_divClk_envelope, Divider.clock_eq]
    rfl

/-- Settles O5: of "false or nothing" (R76) the model answers nothing, at every instance. -/
theorem divRldReloadsAlways : Obligations.DivRldReloadsAlways := by
  unfold Obligations.DivRldReloadsAlways
  refine ⟨fun c s => ⟨.nothing, .inl rfl, ?sweep⟩, fun c s => ⟨.nothing, .inl rfl, ?envelope⟩, encode_divRld⟩
  case sweep => exact exec_divRld_sweep c s
  case envelope => exact exec_divRld_envelope c s

end Sys2Proof.Machine
end

section
/-! The TargetPeriodCalculator's three queries (R82 to R84, R87 to R89). The results are computed on integers; their
ranges (R91) say that a 16-bit response word holds each of them unchanged. -/

namespace Sys2Proof.Machine

/-! ### Response words (R61) -/

/-- A response word holds every signed value of its range. -/
theorem sext16_toInt {i : Int} (hlo : -32768 ≤ i) (hhi : i < 32768) : (sext16 i).toInt = i :=
  BitVec.toInt_ofInt_eq_self (by decide) hlo hhi

/-- A response word holds every unsigned value of its range. -/
theorem zext16_toNat {n : Nat} (h : n < 65536) : (zext16 n).toNat = n := by
  rw [zext16, BitVec.toNat_ofNat, Nat.mod_eq_of_lt h]

/-! ### The change amount and the target -/

section Ranges

variable (pol : Polarity) (u : Sweep) (p : Period)

/-- R82's three cases on one `raw`, the integer quotient. -/
theorem computeChangeAmount_eq :
    computeChangeAmount pol u p =
      if u.negateFlag = true then
        (if pol = .onesComplement then -((p.toNat : Int) / 2 ^ u.shiftCount.toNat) - 1
          else -((p.toNat : Int) / 2 ^ u.shiftCount.toNat))
      else (p.toNat : Int) / 2 ^ u.shiftCount.toNat := by
  have hraw : (rawChange u p : Int) = (p.toNat : Int) / 2 ^ u.shiftCount.toNat := by
    simp [rawChange_eq]
  cases pol <;> simp [computeChangeAmount, hraw]

/-- The change amount is within the period on either side, but for the one's complement's extra one (R91). -/
theorem computeChangeAmount_bounds :
    -(p.toNat : Int) - 1 ≤ computeChangeAmount pol u p ∧ computeChangeAmount pol u p ≤ p.toNat := by
  have hraw := rawChange_le u p
  cases hn : u.negateFlag
  · simp only [computeChangeAmount, hn, Bool.false_eq_true, if_false]
    omega
  · cases pol <;> simp only [computeChangeAmount, hn, if_true] <;> omega

/-- The target is at most twice the period (R91). -/
theorem computeTargetPeriod_le : computeTargetPeriod pol u p ≤ 2 * p.toNat := by
  have hchange := (computeChangeAmount_bounds pol u p).2
  rw [computeTargetPeriod]
  omega

end Ranges

/-! ### The queries -/

section Queries

variable (c : Chan) (s : State)

theorem exec_swpChg :
    exec (.swpChg c) s = .next { s with out := .response (sext16 (s.changeAmount c)) } := rfl

theorem exec_swpTgt :
    exec (.swpTgt c) s = .next { s with out := .response (zext16 (s.targetPeriod c).toNat) } := rfl

theorem exec_swpMute :
    exec (.swpMute c) s = .next { s with out := .response (zext16 (s.muted c).toNat) } := rfl

theorem encode_swpChg : encode (.swpChg c) = .cmd (if c = .ch0 then 0x5000 else 0x5800) := by
  cases c <;> rfl

theorem encode_swpTgt : encode (.swpTgt c) = .cmd (if c = .ch0 then 0x4000 else 0x4800) := by
  cases c <;> rfl

theorem encode_swpMute : encode (.swpMute c) = .cmd (if c = .ch0 then 0x3000 else 0x3800) := by
  cases c <;> rfl

/-- Only the first channel complements without the carry (R17). -/
theorem negatePolarity_eq_onesComplement_iff : Config.negatePolarity c = .onesComplement ↔ c = .ch0 := by
  cases c <;> simp [Config.negatePolarity]

/-- Settles O8: the change amount fits a signed response word, whose value is then R82's formula. -/
theorem swpChgAnswersTheChangeAmount : Obligations.SwpChgAnswersTheChangeAmount := by
  unfold Obligations.SwpChgAnswersTheChangeAmount
  intro c s
  refine ⟨⟨_, exec_swpChg c s, ?value⟩, encode_swpChg c⟩
  case value =>
    obtain ⟨hlo, hhi⟩ :=
      computeChangeAmount_bounds (Config.negatePolarity c) (s.ch c).swp (s.ch c).period
    have hp := (s.ch c).period.isLt
    rw [State.changeAmount, sext16_toInt (by omega) (by omega), computeChangeAmount_eq]
    simp only [negatePolarity_eq_onesComplement_iff]

/-- Settles O9: the target is at least 0 and at most 4094, so the response word holds it whole. -/
theorem swpTgtAnswersTheTargetPeriod : Obligations.SwpTgtAnswersTheTargetPeriod := by
  unfold Obligations.SwpTgtAnswersTheTargetPeriod
  intro c s
  refine ⟨⟨_, exec_swpTgt c s, ?value⟩, encode_swpTgt c⟩
  case value =>
    have hlo : 0 ≤ s.targetPeriod c := computeTargetPeriod_nonneg _ _ _
    have hhi : s.targetPeriod c ≤ 2 * (s.ch c).period.toNat := computeTargetPeriod_le _ _ _
    have hp := (s.ch c).period.isLt
    rw [zext16_toNat (by omega), Int.toNat_of_nonneg hlo]
    rfl

/-- Settles O10: the answer is the mute flag as a number, and the flag is R84's two comparisons. -/
theorem swpMuteAnswersTheMuteFlag : Obligations.SwpMuteAnswersTheMuteFlag := by
  unfold Obligations.SwpMuteAnswersTheMuteFlag
  intro c s
  refine ⟨?answer, encode_swpMute c⟩
  case answer =>
    have hmuted : s.muted c = true ↔ (s.ch c).period.toNat < 8 ∨ 2047 < s.targetPeriod c := isMuted_iff _ _ _
    rw [exec_swpMute]
    simp only [← hmuted]
    cases s.muted c <;> rfl

end Queries

end Sys2Proof.Machine
end

section
/-! The SweepUnit's two commands (R100, R102, R105): the half-frame tick as its three steps read off the pre-tick
unit, the register write, and the words that carry them. -/

namespace Sys2Proof.Machine

/-! ### Words as numbers (R54, R58, R61) -/

/-- Concatenation is positional: the left part counts in units of the right part's size. -/
theorem toNat_append_eq_add {m n : Nat} (x : BitVec m) (y : BitVec n) :
    (x ++ y).toNat = x.toNat * 2 ^ n + y.toNat := by
  rw [BitVec.toNat_append, ← Nat.shiftLeft_add_eq_or_of_lt y.isLt, Nat.shiftLeft_eq]

/-- A command word's number from the numbers of its fields (R54). -/
theorem cmd16_toNat (o : BitVec 4) (b : BitVec 1) (p : BitVec 11) :
    (cmd16 o b p).toNat = o.toNat * 4096 + b.toNat * 2048 + p.toNat := by
  rw [cmd16, toNat_append_eq_add, toNat_append_eq_add]
  omega

/-- A tick's response word: the muted bit counts 2048, the new period stands below it (R61). -/
theorem tickResponse_eq (muted : Bool) (p : Period) :
    tickResponse muted p = BitVec.ofNat 16 ((if muted = true then 2048 else 0) + p.toNat) := by
  have hlayout : tickResponse muted p = cmd16 0 (BitVec.ofBool muted) p := rfl
  have hword : (tickResponse muted p).toNat = (if muted = true then 2048 else 0) + p.toNat := by
    rw [hlayout, cmd16_toNat, BitVec.toNat_ofBool]
    cases muted <;> simp
  rw [← hword, BitVec.ofNat_toNat, BitVec.setWidth_eq]

/-- The number of the payload of `SWP.WR` from the numbers of its operands (R58). -/
theorem swpWrPayload_toNat (e : Bool) (p : BitVec 3) (n : Bool) (sh : BitVec 3) :
    (swpWrPayload e p n sh).toNat = e.toNat * 128 + p.toNat * 16 + n.toNat * 8 + sh.toNat := by
  simp only [swpWrPayload, toNat_append_eq_add, BitVec.toNat_ofBool, BitVec.toNat_zero]
  omega

theorem chanBit_toNat (c : Chan) : (chanBit c).toNat = c.index := by cases c <;> rfl

/-! ### The steps of a tick, on counters as numbers -/

section Steps

variable (pol : Polarity) (u : Sweep) (p : Period)

/-- Step 2: the target under R100's gate, else the period. The target is never negative, so its bits are those of
the natural number the model stores. -/
theorem Sweep.newPeriod_eq :
    u.newPeriod pol p =
      if u.div.counter.toNat = 0 ∧ u.enabled = true ∧ u.shiftCount.toNat ≠ 0 ∧ isMuted pol u p = false then
        BitVec.ofInt 11 (computeTargetPeriod pol u p)
      else p := by
  have hgate := u.updates_iff pol p
  simp only [ne_eq, counter_eq_zero_iff_toNat] at hgate
  have htarget : BitVec.ofInt 11 (computeTargetPeriod pol u p) =
      BitVec.ofNat 11 (computeTargetPeriod pol u p).toNat := by
    rw [← BitVec.ofInt_natCast, Int.toNat_of_nonneg (computeTargetPeriod_nonneg pol u p)]
  rw [Sweep.newPeriod, htarget]
  exact if_congr hgate rfl rfl

/-- Step 3: reload and clear the flag on a zero counter or a pending reload, else decrement (R100). -/
theorem Sweep.maintainDivider_eq :
    u.maintainDivider =
      if u.div.counter.toNat = 0 ∨ u.reloadFlag = true then
        { u with div := ⟨u.dividerPeriod⟩, reloadFlag := false }
      else { u with div := ⟨u.div.counter - 1⟩ } := by
  simp only [← counter_eq_zero_iff_toNat]
  rcases u.maintainDivider_cases with ⟨hreload, h⟩ | ⟨hcounter, hflag, h⟩
  · rw [h, if_pos hreload]
  · rw [h, if_neg (by simp [hcounter, hflag])]
    rfl

/-- The next counter, from the counter, the reload flag and the divider period alone (R102). -/
theorem Sweep.maintainDivider_counter_toNat :
    u.maintainDivider.div.counter.toNat =
      if u.div.counter.toNat = 0 ∨ u.reloadFlag = true then u.dividerPeriod.toNat
      else u.div.counter.toNat - 1 := by
  rw [Sweep.maintainDivider_eq]
  by_cases h : u.div.counter.toNat = 0 ∨ u.reloadFlag = true
  · rw [if_pos h, if_pos h]
  · rw [if_neg h, if_neg h]
    exact counter_sub_one_toNat _ fun h0 => h (.inl ((counter_eq_zero_iff_toNat _).mp h0))

end Steps

/-! ### The commands -/

section Commands

variable (c : Chan) (s : State)

/-- The two writes of a tick are one replacement of the channel record. -/
theorem State.setSwp_setPeriod (u : Sweep) (p : Period) :
    (s.setSwp c u).setPeriod c p = s.setCh c { s.ch c with period := p, swp := u } := by
  simp [State.setPeriod, State.setSwp]

theorem exec_swpWr (e : Bool) (p : BitVec 3) (n : Bool) (sh : BitVec 3) :
    exec (.swpWr c e p n sh) s = .next
      ((s.setSwp c ((s.ch c).swp.onRegisterWrite e p n sh)).answer .nothing) := rfl

theorem encode_swpTick : encode (.swpTick c) = .cmd (if c = .ch0 then 0x1000 else 0x1800) := by
  cases c <;> rfl

theorem encode_swpWr (e : Bool) (p : BitVec 3) (n : Bool) (sh : BitVec 3) :
    encode (.swpWr c e p n sh) = .cmd (BitVec.ofNat 16
      (0x2000 + c.index * 0x800 + e.toNat * 128 + p.toNat * 16 + n.toNat * 8 + sh.toNat)) := by
  have hword : (cmd16 0x2 (chanBit c) (swpWrPayload e p n sh)).toNat =
      0x2000 + c.index * 0x800 + e.toNat * 128 + p.toNat * 16 + n.toNat * 8 + sh.toNat := by
    rw [cmd16_toNat, chanBit_toNat, swpWrPayload_toNat]
    simp only [← Nat.add_assoc]
    rfl
  rw [encode, ← hword, BitVec.ofNat_toNat, BitVec.setWidth_eq]

end Commands

/-- Settles O16: the three steps read the pre-tick unit, so each is its own lemma about that unit, and their writes
are one replacement of the channel record. -/
theorem swpTickFollowsTheThreeSteps : Obligations.SwpTickFollowsTheThreeSteps := by
  unfold Obligations.SwpTickFollowsTheThreeSteps
  refine fun c s => ⟨?steps, encode_swpTick c⟩
  case steps =>
    rw [exec_swpTick, State.setSwp_setPeriod, tickResponse_eq, Sweep.newPeriod_eq, Sweep.maintainDivider_eq]
    rfl

/-- Settles O17: the unit after a tick is the maintained one, whatever step 2 did to the period. -/
theorem dividerMaintenanceOnEveryTick : Obligations.DividerMaintenanceOnEveryTick := by
  unfold Obligations.DividerMaintenanceOnEveryTick
  intro c s
  refine ⟨_, exec_swpTick c s, ?flag, ?counter⟩
  case flag => simp
  case counter =>
    simp only [State.counter, State.answer_ch, State.setPeriod_ch, State.setSwp_ch]
    exact Sweep.maintainDivider_counter_toNat _

/-- Settles O20: `onRegisterWrite` gives every field of the unit but the divider, which R105 leaves alone. -/
theorem swpWrReplacesFieldsAndSetsReload : Obligations.SwpWrReplacesFieldsAndSetsReload := by
  unfold Obligations.SwpWrReplacesFieldsAndSetsReload
  exact fun c e p n sh s => ⟨exec_swpWr c s e p n sh, encode_swpWr c e p n sh⟩

end Sys2Proof.Machine
end

section
/-! The EnvelopeGenerator's commands (R114 to R119): the quarter-frame tick as the table of R115 with its counters read
as numbers, the three commands that keep the counters, and the words that carry them. -/

namespace Sys2Proof.Machine

/-! ### The tick and the start -/

section Generator

variable (g : Envelope)

/-- The fire's three rows of R115: decrement above 0, at 0 load 15 if looping and else stay. -/
theorem Envelope.nextDecay_eq :
    g.nextDecay =
      if 0 < g.decayLevelCounter.toNat then g.decayLevelCounter - 1
      else if g.loopFlag = true then 15 else 0 := by
  by_cases h : g.decayLevelCounter = 0#4
  · have hn : ¬ 0 < g.decayLevelCounter.toNat := by simp [h]
    rw [Envelope.nextDecay, if_neg (not_not_intro h), if_neg hn, h]
    rfl
  · have hn : 0 < g.decayLevelCounter.toNat :=
      Nat.pos_of_ne_zero ((counter_eq_zero_iff_toNat _).not.mp h)
    rw [Envelope.nextDecay, if_pos h, if_pos hn]
    rfl

/-- A pending start is consumed: the decay counter and the divider are reloaded, whatever they held (R114). -/
theorem Envelope.onQuarterFrameClock_of_startFlag (h : g.startFlag = true) :
    g.onQuarterFrameClock = { g with startFlag := false, div := ⟨g.V⟩, decayLevelCounter := 15 } := by
  rcases g.onQuarterFrameClock_cases with ⟨_, hrestart⟩ | ⟨hclear, _⟩ | ⟨hclear, _⟩
  · exact hrestart
  · simp [hclear] at h
  · simp [hclear] at h

/-- The whole table of R115. -/
theorem Envelope.onQuarterFrameClock_eq :
    g.onQuarterFrameClock =
      if g.startFlag = true then { g with startFlag := false, div := ⟨g.V⟩, decayLevelCounter := 15 }
      else if g.div.counter.toNat ≠ 0 then { g with div := ⟨g.div.counter - 1⟩ }
      else if 0 < g.decayLevelCounter.toNat then
        { g with div := ⟨g.V⟩, decayLevelCounter := g.decayLevelCounter - 1 }
      else { g with div := ⟨g.V⟩, decayLevelCounter := if g.loopFlag = true then 15 else 0 } := by
  rcases g.onQuarterFrameClock_cases with ⟨hs, h⟩ | ⟨hs, hc, h⟩ | ⟨hs, hc, h⟩
  · rw [h, if_pos hs]
  · have hn : g.div.counter.toNat ≠ 0 := (counter_eq_zero_iff_toNat _).not.mp hc
    rw [h, if_neg (by simp [hs]), if_pos hn]
    rfl
  · have hn : ¬ g.div.counter.toNat ≠ 0 := not_not_intro ((counter_eq_zero_iff_toNat _).mp hc)
    rw [h, if_neg (by simp [hs]), if_neg hn, Envelope.nextDecay_eq]
    by_cases hd : 0 < g.decayLevelCounter.toNat
    · rw [if_pos hd, if_pos hd]
    · rw [if_neg hd, if_neg hd]

@[simp] theorem Envelope.setStartFlag_startFlag : g.setStartFlag.startFlag = true := rfl
@[simp] theorem Envelope.setStartFlag_V : g.setStartFlag.V = g.V := rfl

/-- A start does not touch what the volume is read from (R117). -/
@[simp] theorem getVolume_setStartFlag : getVolume g.setStartFlag = getVolume g := rfl

/-- The volume as a number (R118). -/
theorem getVolume_toNat :
    (getVolume g).toNat = if g.constantVolumeFlag = true then g.V.toNat else g.decayLevelCounter.toNat := by
  rw [getVolume, apply_ite BitVec.toNat]

end Generator

/-! ### The block's outputs when one generator is replaced (R133) -/

section Outputs

variable (s : State) (c c' : Chan) (g : Envelope) (o : Output)

@[simp] theorem State.answer_period : (s.answer o).period c = s.period c := by
  rw [State.period, State.answer_ch, State.period]

@[simp] theorem State.answer_muted : (s.answer o).muted c = s.muted c := by
  rw [State.muted, State.answer_ch, State.muted]

@[simp] theorem State.answer_volume : (s.answer o).volume c = s.volume c := by
  rw [State.volume, State.answer_ch, State.volume]

@[simp] theorem State.setEnv_period : (s.setEnv c g).period c' = s.period c' := by
  by_cases h : c' = c
  · simp [h, State.period]
  · simp [h, State.period]

@[simp] theorem State.setEnv_muted : (s.setEnv c g).muted c' = s.muted c' := by
  by_cases h : c' = c
  · simp [h, State.muted]
  · simp [h, State.muted]

/-- A generator of the same volume keeps every volume. -/
theorem State.setEnv_volume (hg : getVolume g = s.volume c) : (s.setEnv c g).volume c' = s.volume c' := by
  by_cases h : c' = c
  · rw [h, ← hg, State.volume, State.setEnv_ch]
  · rw [State.volume, State.setEnv_ch_of_ne _ _ _ _ h, State.volume]

end Outputs

/-! ### The commands -/

section EnvelopeCommands

variable (c : Chan) (s : State)

theorem exec_envWr (l cv : Bool) (v : BitVec 4) :
    exec (.envWr c l cv v) s = .next ((s.setEnv c ((s.ch c).env.configure l cv v)).answer .nothing) := rfl

theorem exec_envStart :
    exec (.envStart c) s = .next ((s.setEnv c (s.ch c).env.setStartFlag).answer .nothing) := rfl

theorem exec_envVol :
    exec (.envVol c) s = .next { s with out := .response (zext16 (s.volume c).toNat) } := rfl

theorem encode_envTick : encode (.envTick c) = .cmd (if c = .ch0 then 0x8000 else 0x8800) := by
  cases c <;> rfl

theorem encode_envStart : encode (.envStart c) = .cmd (if c = .ch0 then 0xA000 else 0xA800) := by
  cases c <;> rfl

theorem encode_envVol : encode (.envVol c) = .cmd (if c = .ch0 then 0xB000 else 0xB800) := by
  cases c <;> rfl

/-- The number of the payload of `ENV.WR` from the numbers of its operands (R59). -/
theorem envWrPayload_toNat (l cv : Bool) (v : BitVec 4) :
    (envWrPayload l cv v).toNat = l.toNat * 32 + cv.toNat * 16 + v.toNat := by
  simp only [envWrPayload, toNat_append_eq_add, BitVec.toNat_ofBool, BitVec.toNat_zero]
  omega

theorem encode_envWr (l cv : Bool) (v : BitVec 4) :
    encode (.envWr c l cv v) = .cmd (BitVec.ofNat 16
      (0x9000 + c.index * 0x800 + l.toNat * 32 + cv.toNat * 16 + v.toNat)) := by
  have hword : (cmd16 0x9 (chanBit c) (envWrPayload l cv v)).toNat =
      0x9000 + c.index * 0x800 + l.toNat * 32 + cv.toNat * 16 + v.toNat := by
    rw [cmd16_toNat, chanBit_toNat, envWrPayload_toNat]
    simp only [← Nat.add_assoc]
    rfl
  rw [encode, ← hword, BitVec.ofNat_toNat, BitVec.setWidth_eq]

end EnvelopeCommands

/-- Settles O25: the tick replaces the generator by the clocked one, which is R115's table. -/
theorem envTickFollowsTheTable : Obligations.EnvTickFollowsTheTable := by
  unfold Obligations.EnvTickFollowsTheTable
  refine fun c s => ⟨?table, encode_envTick c⟩
  case table =>
    rw [exec_envTick, Envelope.onQuarterFrameClock_eq]
    rfl

/-- Settles O26: `configure` gives the generator's three fields and keeps the others, as R116 lists them. -/
theorem envWrReplacesThreeFields : Obligations.EnvWrReplacesThreeFields := by
  unfold Obligations.EnvWrReplacesThreeFields
  exact fun c l cv v s => ⟨exec_envWr c s l cv v, encode_envWr c l cv v⟩

/-- Settles O27: the command is `setStartFlag` on the channel's generator, and the word is R117's. -/
theorem envStartSetsTheFlagOnly : Obligations.EnvStartSetsTheFlagOnly := by
  unfold Obligations.EnvStartSetsTheFlagOnly
  exact fun c s => ⟨exec_envStart c s, encode_envStart c⟩

/-- Settles O28: the answer is the volume, whose 4 bits a response word holds whole. -/
theorem envVolAnswersTheVolume : Obligations.EnvVolAnswersTheVolume := by
  unfold Obligations.EnvVolAnswersTheVolume
  intro c s
  refine ⟨⟨_, exec_envVol c s, ?value⟩, encode_envVol c⟩
  case value =>
    have hv := (s.volume c).isLt
    rw [zext16_toNat (by omega), State.volume, getVolume_toNat]

/-- Settles O29: a started generator keeps its volume, no other output reads it, and a tick that finds the flag set
restarts from `V` and 15. -/
theorem startTakesEffectAtTheNextTick : Obligations.StartTakesEffectAtTheNextTick := by
  unfold Obligations.StartTakesEffectAtTheNextTick
  intro c s
  refine ⟨_, _, exec_envStart c s, fun c' => ⟨?period, ?muted, ?volume⟩, exec_envTick c _, ?restart⟩
  case period => simp
  case muted => simp
  case volume =>
    rw [State.answer_volume]
    exact State.setEnv_volume _ _ _ _ (getVolume_setStartFlag _)
  case restart =>
    have hrestart := (s.ch c).env.setStartFlag.onQuarterFrameClock_of_startFlag
      (Envelope.setStartFlag_startFlag _)
    simp [hrestart]

end Sys2Proof.Machine
end

section
/-! The channel's period register and the block's reset (R129 to R131). `PER.WR` replaces one field, `PER.RD` answers
it whole, and `RST` leaves the channels of the reset state, whatever they were. -/

namespace Sys2Proof.Machine

section PeriodAndReset

variable (c : Chan) (p : Period) (s : State)

theorem exec_perWr : exec (.perWr c p) s = .next ((s.setPeriod c p).answer .nothing) := rfl

theorem exec_perRd :
    exec (.perRd c) s = .next { s with out := .response (zext16 (s.period c).toNat) } := rfl

/-- Of the state before it, `RST` keeps only the inputs still to come. -/
theorem exec_rst : exec .rst s = .next { State.reset with inputs := s.inputs } := rfl

theorem encode_perWr :
    encode (.perWr c p) = .cmd (BitVec.ofNat 16 (0x6000 + c.index * 0x800 + p.toNat)) := by
  have hword : (cmd16 0x6 (chanBit c) p).toNat = 0x6000 + c.index * 0x800 + p.toNat := by
    rw [cmd16_toNat, chanBit_toNat]
    rfl
  rw [encode, ← hword, BitVec.ofNat_toNat, BitVec.setWidth_eq]

theorem encode_perRd : encode (.perRd c) = .cmd (if c = .ch0 then 0x7000 else 0x7800) := by
  cases c <;> rfl

theorem encode_rst : encode .rst = .cmd 0xC000 := rfl

/-- The reset signal stands for `RST` itself, without a word to decode (R131). -/
theorem decodeInput_resetSignal : decodeInput .resetSignal = .instr .rst := rfl

end PeriodAndReset

/-- Settles O2: the channels after `RST` are those of the reset state, whose table is O1's. -/
theorem rstResetsEveryField : Obligations.RstResetsEveryField := by
  unfold Obligations.RstResetsEveryField
  obtain ⟨htable, _⟩ := resetStateHasTheTableValues
  exact fun s => ⟨exec_rst s, htable, encode_rst, decodeInput_resetSignal⟩

/-- Settles O34: `setPeriod` is the channel record with its period replaced, so no other field, `reloadFlag` included,
is written. -/
theorem perWrReplacesThePeriod : Obligations.PerWrReplacesThePeriod := by
  unfold Obligations.PerWrReplacesThePeriod
  exact fun c p s => ⟨exec_perWr c p s, encode_perWr c p⟩

/-- Settles O35: the answer is the period, whose 11 bits a response word holds whole. -/
theorem perRdAnswersThePeriod : Obligations.PerRdAnswersThePeriod := by
  unfold Obligations.PerRdAnswersThePeriod
  intro c s
  refine ⟨⟨_, exec_perRd c s, ?value⟩, encode_perRd c⟩
  case value =>
    have hp := (s.period c).isLt
    rw [zext16_toNat (by omega), State.period]

end Sys2Proof.Machine
end

section
/-! Completion (R139): a command of the block has neither a fault nor a refusal among its outcomes. -/

namespace Sys2Proof.Machine

/-- Each command's own equation exhibits its next state; of the micro-operations there is one per kind of instance. -/
theorem exec_completes (i : Instr) (s : State) : ∃ t, exec i s = .next t := by
  cases i with
  | swpTick c => exact ⟨_, exec_swpTick c s⟩
  | swpWr c e p n sh => exact ⟨_, exec_swpWr c s e p n sh⟩
  | swpMute c => exact ⟨_, exec_swpMute c s⟩
  | swpTgt c => exact ⟨_, exec_swpTgt c s⟩
  | swpChg c => exact ⟨_, exec_swpChg c s⟩
  | perWr c p => exact ⟨_, exec_perWr c p s⟩
  | perRd c => exact ⟨_, exec_perRd c s⟩
  | envTick c => exact ⟨_, exec_envTick c s⟩
  | envWr c l cv v => exact ⟨_, exec_envWr c s l cv v⟩
  | envStart c => exact ⟨_, exec_envStart c s⟩
  | envVol c => exact ⟨_, exec_envVol c s⟩
  | rst => exact ⟨_, exec_rst s⟩
  | divClk d =>
    cases d with
    | sweep c => exact ⟨_, exec_divClk_sweep c s⟩
    | envelope c => exact ⟨_, exec_divClk_envelope c s⟩
  | divRld d =>
    cases d with
    | sweep c => exact ⟨_, exec_divRld_sweep c s⟩
    | envelope c => exact ⟨_, exec_divRld_envelope c s⟩

/-- Settles O37: every command completes, and no command that completes has taken an input. -/
theorem everyCommandCompletes : Obligations.EveryCommandCompletes := by
  unfold Obligations.EveryCommandCompletes
  intro i s
  obtain ⟨t, ht⟩ := exec_completes i s
  exact ⟨t, ht, inputs_of_exec ht⟩

end Sys2Proof.Machine
end

section
/-! The writers of each part of a channel (R31), one relation for each part: the commands that replace it, with what
they replace it by. An invariant of a part is then a case analysis over its writers. -/

namespace Sys2Proof.Machine

/-! ### The three tables of writers -/

/-- `PeriodWrite c k i p`: from the channel record `k` of `c`, the command `i` leaves the period `p` (R31). -/
inductive PeriodWrite (c : Chan) (k : Channel) : Instr → Period → Prop where
  | keep (i : Instr) : PeriodWrite c k i k.period
  | write (p : Period) : PeriodWrite c k (.perWr c p) p
  | tick : PeriodWrite c k (.swpTick c) (k.swp.newPeriod (Config.negatePolarity c) k.period)
  | reset : PeriodWrite c k .rst Config.resetChPeriod

/-- `SweepWrite c u i u'`: on the SweepUnit `u` of `c`, the command `i` leaves `u'` (R31). -/
inductive SweepWrite (c : Chan) (u : Sweep) : Instr → Sweep → Prop where
  | keep (i : Instr) : SweepWrite c u i u
  | write (e : Bool) (p : BitVec 3) (n : Bool) (sh : BitVec 3) :
    SweepWrite c u (.swpWr c e p n sh) (u.onRegisterWrite e p n sh)
  | tick : SweepWrite c u (.swpTick c) u.maintainDivider
  | reset : SweepWrite c u .rst Sweep.reset
  | clock : SweepWrite c u (.divClk (.sweep c)) { u with div := (u.div.clock u.dividerPeriod).1 }
  | reload : SweepWrite c u (.divRld (.sweep c)) { u with div := ⟨u.dividerPeriod⟩ }

/-- `EnvelopeWrite c g i g'`: on the EnvelopeGenerator `g` of `c`, the command `i` leaves `g'` (R31). -/
inductive EnvelopeWrite (c : Chan) (g : Envelope) : Instr → Envelope → Prop where
  | keep (i : Instr) : EnvelopeWrite c g i g
  | write (l cv : Bool) (v : BitVec 4) : EnvelopeWrite c g (.envWr c l cv v) (g.configure l cv v)
  | start : EnvelopeWrite c g (.envStart c) g.setStartFlag
  | tick : EnvelopeWrite c g (.envTick c) g.onQuarterFrameClock
  | reset : EnvelopeWrite c g .rst Envelope.reset
  | clock : EnvelopeWrite c g (.divClk (.envelope c)) { g with div := (g.div.clock g.V).1 }
  | reload : EnvelopeWrite c g (.divRld (.envelope c)) { g with div := ⟨g.V⟩ }

/-- `ChannelWrites c k i k'`: each part of `k'` is what the tables let the command leave of that part of `k`. -/
structure ChannelWrites (c : Chan) (k : Channel) (i : Instr) (k' : Channel) : Prop where
  period : PeriodWrite c k i k'.period
  swp : SweepWrite c k.swp i k'.swp
  env : EnvelopeWrite c k.env i k'.env

theorem ChannelWrites.refl (c : Chan) (k : Channel) (i : Instr) : ChannelWrites c k i k :=
  ⟨.keep i, .keep i, .keep i⟩

/-! ### Every command follows the tables -/

/-- Only a command of this channel has to be looked up: one of another channel writes nothing here. -/
theorem ChannelWrites.of_own {c c' : Chan} {k k' : Channel} {i : Instr} (h : c' = c → ChannelWrites c k i k') :
    ChannelWrites c k i (if c' = c then k' else k) := by
  by_cases hc : c' = c
  · simpa only [if_pos hc] using h hc
  · simpa only [if_neg hc] using ChannelWrites.refl c k i

theorem channelWrites_channelAfter (c : Chan) (k : Channel) (i : Instr) :
    ChannelWrites c k i (channelAfter i c k) := by
  cases i with
  | swpMute | swpTgt | swpChg | perRd | envVol => exact .refl ..
  | rst => exact ⟨.reset, .reset, .reset⟩
  | swpTick => exact .of_own fun | rfl => ⟨.tick, .tick, .keep _⟩
  | swpWr => exact .of_own fun | rfl => ⟨.keep _, .write .., .keep _⟩
  | perWr => exact .of_own fun | rfl => ⟨.write _, .keep _, .keep _⟩
  | envTick => exact .of_own fun | rfl => ⟨.keep _, .keep _, .tick⟩
  | envWr => exact .of_own fun | rfl => ⟨.keep _, .keep _, .write ..⟩
  | envStart => exact .of_own fun | rfl => ⟨.keep _, .keep _, .start⟩
  | divClk d =>
    cases d with
    | sweep => exact .of_own fun | rfl => ⟨.keep _, .clock, .keep _⟩
    | envelope => exact .of_own fun | rfl => ⟨.keep _, .keep _, .clock⟩
  | divRld d =>
    cases d with
    | sweep => exact .of_own fun | rfl => ⟨.keep _, .reload, .keep _⟩
    | envelope => exact .of_own fun | rfl => ⟨.keep _, .keep _, .reload⟩

/-- What a command that answers a next state writes to each channel. -/
theorem channelWrites_of_exec {i : Instr} {s t : State} (h : exec i s = .next t) (c : Chan) :
    ChannelWrites c (s.ch c) i (t.ch c) := by
  rw [ch_of_exec h c]
  exact channelWrites_channelAfter c (s.ch c) i

end Sys2Proof.Machine
end

section
/-! The bound of a Divider's counter by its period (R78, R166): each writer keeps it, and so does each step. -/

namespace Sys2Proof.Machine

/-- A clock counts down or reloads, so it keeps a counter within the period it is given (R78). -/
theorem Divider.clock_counter_le {W : Nat} {d : Divider W} {p : BitVec W} (h : d.counter.toNat ≤ p.toNat) :
    (d.clock p).1.counter.toNat ≤ p.toNat := by
  rw [Divider.clock_counter_toNat]
  split <;> omega

/-! ### Sweep dividers -/

/-- The bound for a unit: a write leaves a reload pending, a reload reaches the period itself, and a clock only counts
down. -/
theorem SweepWrite.keeps_bounded {c : Chan} {u u' : Sweep} {i : Instr} (h : SweepWrite c u i u') (hu : u.bounded) :
    u'.bounded := by
  intro hflag
  cases h with
  | keep => exact hu hflag
  | write => cases hflag
  | reset => exact Nat.le_refl _
  | reload => exact Nat.le_refl _
  | clock => exact Divider.clock_counter_le (hu hflag)
  | tick =>
    rw [Sweep.maintainDivider_counter_toNat, Sweep.maintainDivider_dividerPeriod]
    by_cases hreload : u.div.counter.toNat = 0 ∨ u.reloadFlag = true
    · rw [if_pos hreload]
    · have hle := hu (by simpa using fun hr => hreload (.inr hr))
      rw [if_neg hreload]
      omega

/-- The invariant is about the channels alone. -/
theorem State.Inv.of_ch_eq {s t : State} (hs : s.Inv) (h : ∀ c, t.ch c = s.ch c) : t.Inv := by
  intro c
  rw [h c]
  exact hs c

theorem State.Inv.of_exec {i : Instr} {s t : State} (hs : s.Inv) (h : exec i s = .next t) : t.Inv :=
  fun c => (channelWrites_of_exec h c).swp.keeps_bounded (hs c)

/-- Settles O23: a step runs one command, whose writers keep the bound, or leaves both channels as they are. -/
theorem stepKeepsSweepDividersBounded : Obligations.StepKeepsSweepDividersBounded := by
  unfold Obligations.StepKeepsSweepDividersBounded
  intro s t hs hstep
  rcases step_cases s with ⟨_, h⟩ | ⟨inp, rest, _, ⟨i, _, h⟩ | ⟨d, _, h⟩ | ⟨w, _, h⟩ | ⟨d, _, h⟩⟩
  case inl => cases h.symm.trans hstep; exact hs
  case inr.inl => exact (hs.of_ch_eq fun c => State.ch_withInputs s c rest).of_exec (h.symm.trans hstep)
  case inr.inr.inl => cases h.symm.trans hstep; exact hs.of_ch_eq fun c => by cases c <;> rfl
  case inr.inr.inr.inl => cases h.symm.trans hstep
  case inr.inr.inr.inr => cases h.symm.trans hstep

/-- Settles O24: after reset each counter is its period, 0. -/
theorem resetHasSweepDividersBounded : Obligations.ResetHasSweepDividersBounded := by
  unfold Obligations.ResetHasSweepDividersBounded
  intro c _
  rw [State.reset_ch]
  exact Nat.le_refl _

/-! ### Envelope dividers -/

/-- The bound for a generator: every writer but `ENV.WR` keeps `V` and reloads to it or counts down. -/
theorem EnvelopeWrite.keeps_bound {c : Chan} {g g' : Envelope} {i : Instr} (h : EnvelopeWrite c g i g')
    (hi : ∀ l cv v, i ≠ .envWr c l cv v) (hg : g.div.counter.toNat ≤ g.V.toNat) :
    g'.div.counter.toNat ≤ g'.V.toNat := by
  cases h with
  | keep | start => exact hg
  | write => exact absurd rfl (hi _ _ _)
  | reset | reload => exact Nat.le_refl _
  | clock => exact Divider.clock_counter_le hg
  | tick =>
    rw [Envelope.onQuarterFrameClock_V]
    rcases g.onQuarterFrameClock_cases with ⟨_, h⟩ | ⟨_, hc, h⟩ | ⟨_, _, h⟩ <;> rw [h]
    exact (counter_sub_one_toNat _ hc).trans_le (by omega)

/-- Settles O7: of the writers of a generator only `ENV.WR` lowers `V` and leaves the counter. -/
theorem onlyEnvWrBreaksTheEnvelopeBound : Obligations.OnlyEnvWrBreaksTheEnvelopeBound := by
  unfold Obligations.OnlyEnvWrBreaksTheEnvelopeBound
  exact fun i s t c hi hs h => (channelWrites_of_exec h c).env.keeps_bound hi hs

end Sys2Proof.Machine
end

section
/-! Who writes each field (R31): the clauses of the table, each read off the relation of its part. -/

namespace Sys2Proof.Machine

/-- `SWP.WR` of this channel, with any operands. -/
def IsSwpWr (c : Chan) (i : Instr) : Prop := ∃ e p n sh, i = .swpWr c e p n sh

/-- `ENV.WR` of this channel, with any operands. -/
def IsEnvWr (c : Chan) (i : Instr) : Prop := ∃ l cv v, i = .envWr c l cv v

section SweepFields

variable {c : Chan} {u u' : Sweep} {i : Instr}

theorem PeriodWrite.writers {k : Channel} {p : Period} (h : PeriodWrite c k i p) (hne : p ≠ k.period) :
    (∃ q, i = .perWr c q) ∨ i = .swpTick c ∨ i = .rst := by
  cases h with
  | keep => exact absurd rfl hne
  | write => exact .inl ⟨p, rfl⟩
  | tick => exact .inr (.inl rfl)
  | reset => exact .inr (.inr rfl)

/-- The four configuration fields together: they are written by `SWP.WR` and `RST` and kept by the rest. -/
theorem SweepWrite.configuration (h : SweepWrite c u i u') :
    (IsSwpWr c i ∨ i = .rst) ∨
      u'.enabled = u.enabled ∧ u'.shiftCount = u.shiftCount ∧ u'.negateFlag = u.negateFlag ∧
        u'.dividerPeriod = u.dividerPeriod := by
  cases h with
  | write e p n sh => exact .inl (.inl ⟨e, p, n, sh, rfl⟩)
  | reset => exact .inl (.inr rfl)
  | tick => exact .inr (by simp)
  | keep | clock | reload => exact .inr ⟨rfl, rfl, rfl, rfl⟩

theorem SweepWrite.counter_writers (h : SweepWrite c u i u') (hne : u'.div.counter ≠ u.div.counter) :
    i = .swpTick c ∨ i = .rst ∨ i = .divClk (.sweep c) ∨ i = .divRld (.sweep c) := by
  cases h with
  | keep | write => exact absurd rfl hne
  | tick => exact .inl rfl
  | reset => exact .inr (.inl rfl)
  | clock => exact .inr (.inr (.inl rfl))
  | reload => exact .inr (.inr (.inr rfl))

theorem SweepWrite.reloadFlag_setters (h : SweepWrite c u i u') (hu : u.reloadFlag = false)
    (hu' : u'.reloadFlag = true) : IsSwpWr c i := by
  cases h with
  | write e p n sh => exact ⟨e, p, n, sh, rfl⟩
  | keep | clock | reload => simp [hu] at hu'
  | tick => simp at hu'
  | reset => cases hu'

theorem SweepWrite.reloadFlag_clearers (h : SweepWrite c u i u') (hu : u.reloadFlag = true)
    (hu' : u'.reloadFlag = false) : i = .swpTick c ∨ i = .rst := by
  cases h with
  | tick => exact .inl rfl
  | reset => exact .inr rfl
  | keep | clock | reload => simp [hu] at hu'
  | write => cases hu'

end SweepFields

section EnvelopeFields

variable {c : Chan} {g g' : Envelope} {i : Instr}

/-- The three configuration fields together: they are written by `ENV.WR` and `RST` and kept by the rest. -/
theorem EnvelopeWrite.configuration (h : EnvelopeWrite c g i g') :
    (IsEnvWr c i ∨ i = .rst) ∨
      g'.V = g.V ∧ g'.loopFlag = g.loopFlag ∧ g'.constantVolumeFlag = g.constantVolumeFlag := by
  cases h with
  | write l cv v => exact .inl (.inl ⟨l, cv, v, rfl⟩)
  | reset => exact .inl (.inr rfl)
  | tick => exact .inr (by simp)
  | keep | start | clock | reload => exact .inr ⟨rfl, rfl, rfl⟩

theorem EnvelopeWrite.startFlag_setters (h : EnvelopeWrite c g i g') (hg : g.startFlag = false)
    (hg' : g'.startFlag = true) : i = .envStart c := by
  cases h with
  | start => rfl
  | keep | write | clock | reload => simp [Envelope.configure, hg] at hg'
  | tick => simp at hg'
  | reset => cases hg'

theorem EnvelopeWrite.startFlag_clearers (h : EnvelopeWrite c g i g') (hg : g.startFlag = true)
    (hg' : g'.startFlag = false) : i = .envTick c ∨ i = .rst := by
  cases h with
  | tick => exact .inl rfl
  | reset => exact .inr rfl
  | keep | write | clock | reload => simp [Envelope.configure, hg] at hg'
  | start => cases hg'

theorem EnvelopeWrite.counter_writers (h : EnvelopeWrite c g i g') (hne : g'.div.counter ≠ g.div.counter) :
    i = .envTick c ∨ i = .rst ∨ i = .divClk (.envelope c) ∨ i = .divRld (.envelope c) := by
  cases h with
  | keep | write | start => exact absurd rfl hne
  | tick => exact .inl rfl
  | reset => exact .inr (.inl rfl)
  | clock => exact .inr (.inr (.inl rfl))
  | reload => exact .inr (.inr (.inr rfl))

theorem EnvelopeWrite.decay_writers (h : EnvelopeWrite c g i g')
    (hne : g'.decayLevelCounter ≠ g.decayLevelCounter) : i = .envTick c ∨ i = .rst := by
  cases h with
  | keep | write | start | clock | reload => exact absurd rfl hne
  | tick => exact .inl rfl
  | reset => exact .inr rfl

end EnvelopeFields

/-- Settles O38: each clause is the one of its part's table; a configuration field that changed is not kept, so the
command is one of the two that write it. -/
theorem onlyTheListedWritersChangeAField : Obligations.OnlyTheListedWritersChangeAField := by
  unfold Obligations.OnlyTheListedWritersChangeAField
  intro i s t c h
  obtain ⟨hperiod, hswp, henv⟩ := channelWrites_of_exec h c
  have hswpConf := hswp.configuration
  have henvConf := henv.configuration
  exact ⟨hperiod.writers, fun hne => hswpConf.resolve_right fun ⟨hk, _⟩ => hne hk,
    fun hne => hswpConf.resolve_right fun ⟨_, hk, _⟩ => hne hk,
    fun hne => hswpConf.resolve_right fun ⟨_, _, hk, _⟩ => hne hk,
    fun hne => hswpConf.resolve_right fun ⟨_, _, _, hk⟩ => hne hk,
    hswp.counter_writers, hswp.reloadFlag_setters, hswp.reloadFlag_clearers,
    henv.startFlag_setters, henv.startFlag_clearers,
    fun hne => henvConf.resolve_right fun ⟨hk, _⟩ => hne hk,
    henv.counter_writers, henv.decay_writers,
    fun hne => henvConf.resolve_right fun ⟨_, hk, _⟩ => hne hk,
    fun hne => henvConf.resolve_right fun ⟨_, _, hk⟩ => hne hk⟩

end Sys2Proof.Machine
end

section
/-! Decoding and encoding as inverses of each other (R71). On the three fields of a word they agree opcode by opcode;
the payloads of `SWP.WR` and `ENV.WR` give their operands back, and the operands give the payload back. -/

namespace Sys2Proof

open Machine

/-! ### Payloads and their operands -/

theorem getLsbD_toNat_eq {n : Nat} (x : BitVec n) (i : Nat) : (x.getLsbD i).toNat = x.toNat / 2 ^ i % 2 := by
  rw [BitVec.getLsbD, Nat.toNat_testBit]

theorem extractLsb'_toNat_eq {n : Nat} (x : BitVec n) (lo len : Nat) :
    (x.extractLsb' lo len).toNat = x.toNat / 2 ^ lo % 2 ^ len := by
  rw [BitVec.extractLsb'_toNat, Nat.shiftRight_eq_div_pow]

/-- Flags of equal numbers are equal. -/
theorem bool_eq_of_toNat_eq {a b : Bool} (h : a.toNat = b.toNat) : a = b := by
  cases a <;> cases b <;> simp_all

/-- The payload of `SWP.WR` has its operands where R58 puts them. -/
theorem swpWrPayload_fields (e : Bool) (p : BitVec 3) (n : Bool) (s : BitVec 3) :
    (swpWrPayload e p n s).getLsbD 7 = e ∧ (swpWrPayload e p n s).extractLsb' 4 3 = p ∧
      (swpWrPayload e p n s).getLsbD 3 = n ∧ (swpWrPayload e p n s).extractLsb' 0 3 = s := by
  have he := e.toNat_lt
  have hn := n.toNat_lt
  refine ⟨bool_eq_of_toNat_eq ?_, BitVec.eq_of_toNat_eq ?_, bool_eq_of_toNat_eq ?_, BitVec.eq_of_toNat_eq ?_⟩
  all_goals
    simp only [getLsbD_toNat_eq, extractLsb'_toNat_eq, swpWrPayload_toNat]
    omega

/-- A payload within the layout of `SWP.WR` is made of its own fields. -/
theorem swpWrPayload_of_fields {pay : BitVec 11} (h : pay.toNat < 256) :
    swpWrPayload (pay.getLsbD 7) (pay.extractLsb' 4 3) (pay.getLsbD 3) (pay.extractLsb' 0 3) = pay := by
  apply BitVec.eq_of_toNat_eq
  simp only [swpWrPayload_toNat, getLsbD_toNat_eq, extractLsb'_toNat_eq]
  omega

/-- The payload of `ENV.WR` has its operands where R59 puts them. -/
theorem envWrPayload_fields (l cv : Bool) (v : BitVec 4) :
    (envWrPayload l cv v).getLsbD 5 = l ∧ (envWrPayload l cv v).getLsbD 4 = cv ∧
      (envWrPayload l cv v).extractLsb' 0 4 = v := by
  have hl := l.toNat_lt
  have hcv := cv.toNat_lt
  refine ⟨bool_eq_of_toNat_eq ?_, bool_eq_of_toNat_eq ?_, BitVec.eq_of_toNat_eq ?_⟩
  all_goals
    simp only [getLsbD_toNat_eq, extractLsb'_toNat_eq, envWrPayload_toNat]
    omega

/-- A payload within the layout of `ENV.WR` is made of its own fields. -/
theorem envWrPayload_of_fields {pay : BitVec 11} (h : pay.toNat < 64) :
    envWrPayload (pay.getLsbD 5) (pay.getLsbD 4) (pay.extractLsb' 0 4) = pay := by
  apply BitVec.eq_of_toNat_eq
  simp only [envWrPayload_toNat, getLsbD_toNat_eq, extractLsb'_toNat_eq]
  omega

/-! ### The opcodes with payload fields -/

theorem decodeFields_swpWr (b : BitVec 1) (pay : BitVec 11) :
    decodeFields 0x2 b pay =
      if pay.toNat < 256 then
        .instr (.swpWr (chanOfBit b) (pay.getLsbD 7) (pay.extractLsb' 4 3) (pay.getLsbD 3) (pay.extractLsb' 0 3))
      else .reservedWord (cmd16 0x2 b pay) := rfl

theorem decodeFields_envWr (b : BitVec 1) (pay : BitVec 11) :
    decodeFields 0x9 b pay =
      if pay.toNat < 64 then
        .instr (.envWr (chanOfBit b) (pay.getLsbD 5) (pay.getLsbD 4) (pay.extractLsb' 0 4))
      else .reservedWord (cmd16 0x9 b pay) := rfl

/-! ### Decoding what was encoded -/

theorem decodeInput_cmd16 (opc : BitVec 4) (b : BitVec 1) (pay : BitVec 11) :
    decodeInput (.cmd (cmd16 opc b pay)) = decodeFields opc b pay := decodeCmd16_cmd16 opc b pay

theorem decodeInput_encode (i : Instr) : decodeInput (encode i) = .instr i := by
  cases i with
  | divClk | divRld => rfl
  | swpWr c e p n s =>
    obtain ⟨he, hp, hn, hs⟩ := swpWrPayload_fields e p n s
    rw [encode, decodeInput_cmd16, decodeFields_swpWr, if_pos (Laws.MatchesRow.swpWrPayload_lt e p n s), he, hp, hn,
      hs, chanOfBit_chanBit]
  | envWr c l cv v =>
    obtain ⟨hl, hcv, hv⟩ := envWrPayload_fields l cv v
    rw [encode, decodeInput_cmd16, decodeFields_envWr, if_pos (Laws.MatchesRow.envWrPayload_lt l cv v), hl, hcv, hv,
      chanOfBit_chanBit]
  | swpTick | swpMute | swpTgt | swpChg | perWr | perRd | envTick | envStart | envVol | rst =>
    rw [encode, decodeInput_cmd16]
    simp [decodeFields]

/-- Settles O44: an encoding is made of fields that decode to the instruction, operand by operand. -/
theorem decodeInvertsEncode : Obligations.DecodeInvertsEncode := by
  unfold Obligations.DecodeInvertsEncode
  exact decodeInput_encode

/-! ### Encoding what was decoded -/

section Fields

variable {opc : BitVec 4} {b : BitVec 1} {pay : BitVec 11} {i : Instr}

/-- An opcode without payload fields decodes on an empty payload only, so its command's word is the one decoded. -/
theorem encode_of_plain {mk : Chan → Instr} {w : Word}
    (hmk : ∀ c, encode (mk c) = .cmd (cmd16 opc (chanBit c) 0))
    (h : (if pay = 0 then Decoded.instr (mk (chanOfBit b)) else .reservedWord w) = .instr i) :
    encode i = .cmd (cmd16 opc b pay) := by
  by_cases hpay : pay = 0
  · rw [if_pos hpay] at h
    cases h
    rw [hmk, chanBit_chanOfBit, hpay]
  · cases (if_neg hpay).symm.trans h

/-- The opcodes without payload fields, one by one (R57). -/
theorem opcode_of_plain (h : opc.toNat ∈ [0x1, 0x3, 0x4, 0x5, 0x7, 0x8, 0xA, 0xB]) :
    opc = 0x1 ∨ opc = 0x3 ∨ opc = 0x4 ∨ opc = 0x5 ∨ opc = 0x7 ∨ opc = 0x8 ∨ opc = 0xA ∨ opc = 0xB := by
  revert opc
  decide

theorem encode_of_decodeFields (h : decodeFields opc b pay = .instr i) : encode i = .cmd (cmd16 opc b pay) := by
  rcases opcode_cases opc with hundef | hplain | hopc | hopc | hopc | hopc
  case inl =>
    rw [decodeFields_of_undefined b pay hundef] at h
    cases h
  case inr.inl =>
    rcases opcode_of_plain hplain with rfl | rfl | rfl | rfl | rfl | rfl | rfl | rfl <;>
      exact encode_of_plain (fun _ => rfl) h
  case inr.inr.inl =>
    obtain rfl : opc = 0x2 := BitVec.eq_of_toNat_eq hopc
    rw [decodeFields_swpWr] at h
    split at h
    case isTrue hlt => cases h; rw [encode, chanBit_chanOfBit, swpWrPayload_of_fields hlt]
    case isFalse => cases h
  case inr.inr.inr.inl =>
    obtain rfl : opc = 0x6 := BitVec.eq_of_toNat_eq hopc
    cases h
    rw [encode, chanBit_chanOfBit]
  case inr.inr.inr.inr.inl =>
    obtain rfl : opc = 0x9 := BitVec.eq_of_toNat_eq hopc
    rw [decodeFields_envWr] at h
    split at h
    case isTrue hlt => cases h; rw [encode, chanBit_chanOfBit, envWrPayload_of_fields hlt]
    case isFalse => cases h
  case inr.inr.inr.inr.inr =>
    obtain rfl : opc = 0xC := BitVec.eq_of_toNat_eq hopc
    by_cases hzero : b = 0 ∧ pay = 0
    · obtain ⟨rfl, rfl⟩ := hzero
      cases h
      rfl
    · cases (if_neg hzero).symm.trans h

end Fields

/-- The four selects of a port (R66). -/
theorem select_cases (sel : Select) : sel = 0 ∨ sel = 1 ∨ sel = 2 ∨ sel = 3 := by
  revert sel
  decide

theorem encode_of_decodeDp2 {d : DividerId} {sel : Select} {i : Instr} (h : decodeDp2 d sel = .instr i) :
    encode i = .dp2 d sel := by
  rcases select_cases sel with rfl | rfl | rfl | rfl <;> cases h <;> rfl

/-- Settles O45: a word is its three fields, on which the encoder undoes the decoder. -/
theorem encodeInvertsDecode : Obligations.EncodeInvertsDecode := by
  unfold Obligations.EncodeInvertsDecode
  refine ⟨fun w i h => ?word, fun d sel i h => encode_of_decodeDp2 h⟩
  case word =>
    rw [← cmd16_fields w, decodeCmd16_cmd16] at h
    rw [encode_of_decodeFields h, cmd16_fields w]

end Sys2Proof
end

section
/-! The rows of the opcode table (R63): every mask covers the whole opcode and no two rows share one, so the opcode of
a word leaves at most one row to accept it. -/

namespace Sys2Proof

theorem mask_covers_opcode : ∀ r ∈ cmd16Rows, r.mask.extractLsb' 12 4 = BitVec.allOnes 4 := by decide

/-- A row accepts only words of its own opcode. -/
theorem wordOpc_eq_of_accepts {r : Row} {w : Word} (hr : r ∈ cmd16Rows) (h : r.accepts w = true) :
    wordOpc w = wordOpc r.bits := by
  have hbits : w &&& r.mask = r.bits := eq_of_beq h
  rw [wordOpc, wordOpc, ← hbits, BitVec.extractLsb'_and, mask_covers_opcode r hr, BitVec.and_allOnes]

theorem row_opcodes_nodup : (cmd16Rows.map fun r => wordOpc r.bits).Nodup := by decide

/-- Two rows that accept one word are one row. -/
theorem row_eq_of_accepts {r r' : Row} {w : Word} (hr : r ∈ cmd16Rows) (hr' : r' ∈ cmd16Rows)
    (h : r.accepts w = true) (h' : r'.accepts w = true) : r' = r :=
  List.inj_on_of_nodup_map row_opcodes_nodup hr' hr
    ((wordOpc_eq_of_accepts hr' h').symm.trans (wordOpc_eq_of_accepts hr h))

theorem decodeCmd16_of_accepts {r : Row} {w : Word} (hr : r ∈ cmd16Rows) (h : r.accepts w = true) :
    decodeCmd16 w = .instr (r.build w) := by
  rw [decodeCmd16]
  cases hfind : cmd16Rows.find? (fun r => r.accepts w) with
  | none => exact absurd h (List.find?_eq_none.mp hfind r hr)
  | some r' =>
    have haccepts := List.find?_some hfind
    rw [row_eq_of_accepts hr (List.mem_of_find?_eq_some hfind) h haccepts]

/-- Settles O46: the row that the decoder finds is the one that accepts the word. -/
theorem rowsDecodeUnambiguously : Obligations.RowsDecodeUnambiguously := by
  unfold Obligations.RowsDecodeUnambiguously
  exact fun w r hr h => ⟨decodeCmd16_of_accepts hr h, fun r' hr' h' => by rw [row_eq_of_accepts hr hr' h h']⟩

/-- Settles O50: each word is accepted by the row named, and the two reserved words by none. -/
theorem workedEncodingsDecode : Obligations.WorkedEncodingsDecode := by
  unfold Obligations.WorkedEncodingsDecode
  decide

end Sys2Proof
end

section
/-! The words of commands as numbers (R70): the fields of a word are digits, and so are the operands of a payload. -/

namespace Sys2Proof.Machine

/-- Settles O49: a command word's number is that of its fields, and the two payloads with operands are numbers of
their own. -/
theorem assembledWordIsTheFormula : Obligations.AssembledWordIsTheFormula := by
  unfold Obligations.AssembledWordIsTheFormula
  intro i w h
  cases i with
  | divClk | divRld => cases h
  | rst => cases h; rfl
  | swpWr | envWr =>
    cases h
    rw [cmd16_toNat, chanBit_toNat]
    simp only [swpWrPayload_toNat, envWrPayload_toNat]
    rfl
  | swpTick | swpMute | swpTgt | swpChg | perWr | perRd | envTick | envStart | envVol =>
    cases h
    rw [cmd16_toNat, chanBit_toNat]
    rfl

end Sys2Proof.Machine
end

section
/-! The assembler (R68, R71). A command assembles exactly when it is well formed, and what it assembles to is written
by that command alone. -/

namespace Sys2Proof

/-! ### Operands and fields -/

@[simp] theorem chanOf_index (c : Chan) : chanOf c.index = c := by cases c <;> rfl

theorem index_chanOf {c : Nat} (h : c < 2) : (chanOf c).index = c := by
  rcases (by omega : c = 0 ∨ c = 1) with rfl | rfl <;> rfl

@[simp] theorem index_le_one (c : Chan) : c.index ≤ 1 := by cases c <;> decide

/-- A flag is read back from its number. -/
@[simp] theorem toNat_beq_one (b : Bool) : (b.toNat == 1) = b := by cases b <;> rfl

theorem beq_one_toNat {n : Nat} (h : n < 2) : (n == 1).toNat = n := by
  rcases (by omega : n = 0 ∨ n = 1) with rfl | rfl <;> rfl

/-! ### Assembling -/

/-- A well-formed command makes an instruction, and that instruction is written by the command: every operand is in
the range of the field it fills. -/
theorem build_of_wf (port : DividerId) {a : AsmCmd} (h : a.wf = true) :
    ∃ i, a.build port = some i ∧ disassemble i = a := by
  obtain ⟨m, ops⟩ := a
  unfold AsmCmd.wf at h
  split at h
  -- The last row of `AsmCmd.wf` takes every other list, and refuses it.
  case h_15 => cases h
  all_goals
    rename_i hm hops
    cases hm
    cases hops
    simp only [Bool.and_eq_true, decide_eq_true_eq] at h
    refine ⟨_, rfl, ?_⟩
    simp [disassemble, index_chanOf, beq_one_toNat, h]

theorem assemble_eq_some_iff {port : DividerId} {a : AsmCmd} {i : Instr} :
    assemble port a = some i ↔ a.wf = true ∧ a.build port = some i := by
  simp [assemble]

theorem exists_assemble_iff_wf (port : DividerId) (a : AsmCmd) :
    (∃ i, assemble port a = some i) ↔ a.wf = true := by
  simp only [assemble_eq_some_iff]
  refine ⟨fun ⟨_, h, _⟩ => h, fun h => ?_⟩
  obtain ⟨i, hi, _⟩ := build_of_wf port h
  exact ⟨i, h, hi⟩

/-- Settles O57: the instruction is the one that the command, being well formed, makes. -/
theorem disassembleInvertsAssemble : Obligations.DisassembleInvertsAssemble := by
  unfold Obligations.DisassembleInvertsAssemble
  intro port a i h
  obtain ⟨hwf, hbuild⟩ := assemble_eq_some_iff.mp h
  obtain ⟨i', hbuild', hdis⟩ := build_of_wf port hwf
  cases hbuild.symm.trans hbuild'
  exact hdis

/-- Settles O51: a command assembles exactly when it is well formed, and `AsmCmd.wf` checks the operand list that the
mnemonic takes. -/
theorem assemblerAcceptsExactlyInRange : Obligations.AssemblerAcceptsExactlyInRange := by
  unfold Obligations.AssemblerAcceptsExactlyInRange
  intro port m ops
  rw [exists_assemble_iff_wf]
  constructor
  case mp =>
    intro h
    unfold AsmCmd.wf at h
    -- Each accepting row of `AsmCmd.wf` is the clause of its mnemonic, with `<` for `≤`.
    split at h <;> simp_all only [Bool.and_eq_true, decide_eq_true_eq, reduceCtorEq, List.cons.injEq]
    all_goals simp
    all_goals omega
  case mpr =>
    intro h
    cases m with
    | rst | divClk | divRld => subst h; rfl
    | swpWr => obtain ⟨c, e, p, n, s, rfl, h⟩ := h; simp [AsmCmd.wf]; omega
    | perWr => obtain ⟨c, t, rfl, h⟩ := h; simp [AsmCmd.wf]; omega
    | envWr => obtain ⟨c, l, cv, v, rfl, h⟩ := h; simp [AsmCmd.wf]; omega
    | swpTick | swpMute | swpTgt | swpChg | perRd | envTick | envStart | envVol =>
      obtain ⟨c, rfl, h⟩ := h
      simp [AsmCmd.wf]
      omega

/-! ### Disassembling -/

/-- Every field is within the range of its operand. -/
theorem disassemble_wf (i : Instr) : (disassemble i).wf = true := by
  cases i with
  | rst | divClk | divRld => rfl
  | swpWr c e p n s =>
    have hp := p.isLt
    have hs := s.isLt
    simp [disassemble, AsmCmd.wf, Bool.toNat_le, hp, hs]
  | perWr c t =>
    have ht := t.isLt
    simpa [disassemble, AsmCmd.wf] using ht
  | envWr c l cv v =>
    have hv := v.isLt
    simpa [disassemble, AsmCmd.wf, Bool.toNat_le] using hv
  | swpTick | swpMute | swpTgt | swpChg | perRd | envTick | envStart | envVol => simp [disassemble, AsmCmd.wf]

/-- The text of a micro-operation names no port: it makes the instruction at the assembler's own. -/
theorem build_disassemble {port : DividerId} {i : Instr} (h : ∀ d, i = .divClk d ∨ i = .divRld d → d = port) :
    (disassemble i).build port = some i := by
  cases i with
  | divClk d => rw [h d (.inl rfl)]; rfl
  | divRld d => rw [h d (.inr rfl)]; rfl
  | _ => simp [disassemble, AsmCmd.build]

/-- Settles O52: the command that writes an instruction is well formed and makes it. -/
theorem assembleInvertsDisassemble : Obligations.AssembleInvertsDisassemble := by
  unfold Obligations.AssembleInvertsDisassemble
  exact fun port i h => assemble_eq_some_iff.mpr ⟨disassemble_wf i, build_disassemble h⟩

end Sys2Proof
end

section
/-! The arithmetic laws of the target period (R91 to R95). Each is about one number, the raw change: with negate clear
it is added to the period, with negate set it is taken away, and one more on the one's complement channel. -/

namespace Sys2Proof.Machine

/-! ### The raw change, added or taken away -/

/-- What the one's complement takes away beside the raw change (R82). -/
def complementExtra : Polarity → Int
  | .onesComplement => 1
  | .twosComplement => 0

theorem complementExtra_bounds (pol : Polarity) : 0 ≤ complementExtra pol ∧ complementExtra pol ≤ 1 := by
  cases pol <;> decide

section Laws

variable {pol : Polarity} {u : Sweep} {p : Period}

theorem computeChangeAmount_of_not_negate (h : u.negateFlag = false) :
    computeChangeAmount pol u p = rawChange u p := by
  simp [computeChangeAmount, h]

theorem computeChangeAmount_of_negate (h : u.negateFlag = true) :
    computeChangeAmount pol u p = -(rawChange u p : Int) - complementExtra pol := by
  cases pol <;> simp [computeChangeAmount, h, complementExtra]

theorem computeTargetPeriod_of_not_negate (h : u.negateFlag = false) :
    computeTargetPeriod pol u p = (p.toNat : Int) + rawChange u p := by
  rw [computeTargetPeriod, computeChangeAmount_of_not_negate h]
  omega

theorem computeTargetPeriod_of_negate (h : u.negateFlag = true) :
    computeTargetPeriod pol u p = max 0 ((p.toNat : Int) - rawChange u p - complementExtra pol) := by
  rw [computeTargetPeriod, computeChangeAmount_of_negate h]
  congr 1
  omega

/-- With negate set no target overflows, so only the period mutes (R92). -/
theorem isMuted_of_negate (h : u.negateFlag = true) : isMuted pol u p = true ↔ p.toNat < 8 := by
  have hextra := complementExtra_bounds pol
  have hp := p.isLt
  rw [isMuted_iff, computeTargetPeriod_of_negate h]
  omega

/-- With negate clear the target is the period and its raw change, whatever the polarity (R93). -/
theorem isMuted_of_not_negate (h : u.negateFlag = false) :
    isMuted pol u p = true ↔ p.toNat < 8 ∨ 2047 < p.toNat + rawChange u p := by
  rw [isMuted_iff, computeTargetPeriod_of_not_negate h]
  omega

/-- The raw change is the period itself exactly without a shift, or of period 0. -/
theorem rawChange_eq_period_iff : rawChange u p = p.toNat ↔ u.shiftCount = 0 ∨ p = 0 := by
  have hp : p = 0 ↔ p.toNat = 0 := counter_eq_zero_iff_toNat p
  have hs : u.shiftCount = 0 ↔ u.shiftCount.toNat = 0 := counter_eq_zero_iff_toNat _
  rw [rawChange_eq, hp, hs, Nat.div_eq_self]
  simp [or_comm]

/-- With a shift the raw change is at most half the period. -/
theorem rawChange_le_half (h : u.shiftCount ≠ 0) : 2 * rawChange u p ≤ p.toNat := by
  have hs : u.shiftCount.toNat ≠ 0 := (counter_eq_zero_iff_toNat _).not.mp h
  have hpow : 2 ^ 1 ≤ 2 ^ u.shiftCount.toNat := Nat.pow_le_pow_right (by decide) (by omega)
  have hdiv : p.toNat / 2 ^ u.shiftCount.toNat ≤ p.toNat / 2 ^ 1 := Nat.div_le_div_left hpow (by decide)
  rw [rawChange_eq]
  omega

/-- R93's table: from the threshold of the shift count on, the sum overflows. -/
theorem overflow_iff_threshold :
    2047 < p.toNat + rawChange u p ↔
      [1024, 1366, 1639, 1821, 1928, 1986, 2017, 2033].getD u.shiftCount.toNat 0 ≤ p.toNat := by
  rw [rawChange_eq]
  have hs : u.shiftCount.toNat < 8 := u.shiftCount.isLt
  generalize u.shiftCount.toNat = k at *
  interval_cases k <;> simp <;> omega

end Laws

/-- Settles O11: the raw change is at most the period, of 11 bits, and the other bounds are sums of these two. -/
theorem arithmeticStaysInRange : Obligations.ArithmeticStaysInRange := by
  unfold Obligations.ArithmeticStaysInRange
  intro pol u p
  have hraw := rawChange_le u p
  have htarget := computeTargetPeriod_nonneg pol u p
  have hp := p.isLt
  have hextra := complementExtra_bounds pol
  cases hn : u.negateFlag with
  | false =>
    rw [computeTargetPeriod_of_not_negate hn, computeChangeAmount_of_not_negate hn]
    omega
  | true =>
    rw [computeTargetPeriod_of_negate hn, computeChangeAmount_of_negate hn]
    omega

/-- Settles O12: what is taken away is not negative, and exceeds the period only where the raw change is all of it and
the extra one comes on top. -/
theorem negateNeverMutesByOverflow : Obligations.NegateNeverMutesByOverflow := by
  unfold Obligations.NegateNeverMutesByOverflow
  intro pol u p hn
  refine ⟨?le, isMuted_of_negate hn, ?clamp⟩
  case le =>
    have hextra := complementExtra_bounds pol
    rw [computeTargetPeriod_of_negate hn]
    omega
  case clamp =>
    have hraw := rawChange_le u p
    rw [computeChangeAmount_of_negate hn, ← rawChange_eq_period_iff]
    cases pol <;> simp [complementExtra] <;> omega

/-- Settles O13: the sum overflows from the threshold on, and without a shift the raw change is the period. -/
theorem muteThresholdsPerShiftCount : Obligations.MuteThresholdsPerShiftCount := by
  unfold Obligations.MuteThresholdsPerShiftCount
  intro pol u p hn
  refine ⟨by rw [isMuted_of_not_negate hn, overflow_iff_threshold], fun hs => ?double⟩
  case double =>
    have hraw : rawChange u p = p.toNat := rawChange_eq_period_iff.mpr (.inl hs)
    rw [computeTargetPeriod_of_not_negate hn, computeChangeAmount_of_not_negate hn, hraw]
    omega

/-- Settles O14: with negate clear the polarity is not read, and with negate set only the period mutes. -/
theorem muteDependsOnPeriodShiftNegateOnly : Obligations.MuteDependsOnPeriodShiftNegateOnly := by
  unfold Obligations.MuteDependsOnPeriodShiftNegateOnly
  intro s s' c c' hp hs hn
  rw [State.muted, State.muted, hp, isMuted_congr _ _ hs hn, Bool.eq_iff_iff]
  cases hneg : (s'.ch c').swp.negateFlag with
  | false => rw [isMuted_of_not_negate hneg, isMuted_of_not_negate hneg]
  | true => rw [isMuted_of_negate hneg, isMuted_of_negate hneg]

/-! ### The 12-bit adder (R95) -/

section Adder

variable {pol : Polarity} {u : Sweep} {p : Period}

theorem adderRaw_toNat : (adderRaw u p).toNat = rawChange u p := BitVec.toNat_ushiftRight _ _

/-- With negate clear the adder adds the raw change and 12 bits hold the sum. -/
theorem adderSum_toNat_of_not_negate (h : u.negateFlag = false) :
    (adderSum pol u p).toNat = p.toNat + rawChange u p := by
  have hraw := rawChange_le u p
  have hp := p.isLt
  simp [adderSum, h, adderRaw_toNat]
  omega

/-- With negate set the adder adds the complement, so that its sum stands 2048 above the signed one. -/
theorem adderSum_toNat_of_negate (h : u.negateFlag = true) :
    ((adderSum pol u p).toNat : Int) = 2048 + (p.toNat - rawChange u p - complementExtra pol) := by
  have hraw := rawChange_le u p
  have hp := p.isLt
  cases pol <;> simp [adderSum, h, adderRaw_toNat, adderCarryIn, complementExtra] <;> omega

/-- The carry out of 11 bits. -/
theorem getLsbD_eleven_iff (t : BitVec 12) : t.getLsbD 11 = true ↔ 2048 ≤ t.toNat := by
  have hbit := getLsbD_toNat_eq t 11
  have ht := t.isLt
  cases hb : t.getLsbD 11 <;> simp only [hb, Bool.toNat_true, Bool.toNat_false] at hbit <;> simp <;> omega

/-- Bits 10 to 3 are clear exactly below 8. -/
theorem extractLsb'_three_eight_iff : (p.extractLsb' 3 8 == 0) = true ↔ p.toNat < 8 := by
  have hp := p.isLt
  rw [beq_iff_eq, BitVec.toNat_eq, extractLsb'_toNat_eq]
  simp
  omega

/-- With negate set the clamp at 0 acts exactly without a carry, where the signed sum is negative. -/
theorem adderTarget_eq : ((adderTarget pol u p).toNat : Int) = computeTargetPeriod pol u p := by
  cases hn : u.negateFlag with
  | false =>
    rw [computeTargetPeriod_of_not_negate hn]
    simp [adderTarget, hn, adderSum_toNat_of_not_negate hn]
  | true =>
    have hsum := adderSum_toNat_of_negate (pol := pol) (p := p) hn
    have hlt := (adderSum pol u p).isLt
    have hcarry := getLsbD_eleven_iff (adderSum pol u p)
    rw [computeTargetPeriod_of_negate hn]
    by_cases hc : (adderSum pol u p).getLsbD 11 = true
    · have hge := hcarry.mp hc
      simp only [adderTarget, hn, hc, if_true, BitVec.toNat_setWidth, extractLsb'_toNat_eq]
      omega
    · have hlt' := hcarry.not.mp hc
      simp only [adderTarget, hn, hc, if_true]
      simp
      omega

/-- The two causes of muting, as bits: an empty `cur[10:3]`, and with negate clear the carry. -/
theorem adderMuted_eq : adderMuted pol u p = isMuted pol u p := by
  rw [Bool.eq_iff_iff, adderMuted, Bool.or_eq_true, extractLsb'_three_eight_iff]
  cases hn : u.negateFlag with
  | false =>
    have hcarry := getLsbD_eleven_iff (adderSum pol u p)
    rw [adderSum_toNat_of_not_negate hn] at hcarry
    rw [isMuted_of_not_negate hn]
    simp only [adderOverflow, hn, Bool.false_eq_true, if_false, hcarry]
    omega
  | true =>
    rw [isMuted_of_negate hn]
    simp [adderOverflow, hn]

end Adder

/-- Settles O15: the adder's sum is the signed one plus 2048 exactly when negate is set, so bit 11 is the overflow with
negate clear and tells a sum that needs no clamp with negate set. -/
theorem adderRealisesTheTargetPeriod : Obligations.AdderRealisesTheTargetPeriod := by
  unfold Obligations.AdderRealisesTheTargetPeriod
  exact fun pol u p => ⟨adderTarget_eq, adderMuted_eq⟩

end Sys2Proof.Machine
end

section
/-! The new period of an update (R104), and outputs that follow from the mute flag's laws (R84, R103, R160). -/

namespace Sys2Proof.Machine

/-- The target of an unmuted unit with a shift is the sum itself, no clamp acting, and at least 3: at most half the
period and one more is taken away from a period of at least 8 (R104). -/
theorem computeTargetPeriod_of_audible {pol : Polarity} {u : Sweep} {p : Period} (hs : u.shiftCount ≠ 0)
    (hm : isMuted pol u p = false) :
    computeTargetPeriod pol u p = p.toNat + computeChangeAmount pol u p ∧ 3 ≤ computeTargetPeriod pol u p := by
  have hhalf := rawChange_le_half (p := p) hs
  have hextra := complementExtra_bounds pol
  obtain ⟨haudible, _⟩ := (isMuted_eq_false_iff pol u p).mp hm
  cases hn : u.negateFlag with
  | false =>
    rw [computeTargetPeriod_of_not_negate hn, computeChangeAmount_of_not_negate hn]
    omega
  | true =>
    rw [computeTargetPeriod_of_negate hn, computeChangeAmount_of_negate hn]
    omega

/-- A period that changed was updated. -/
theorem Sweep.updates_of_newPeriod_ne {pol : Polarity} {u : Sweep} {p : Period} (h : u.newPeriod pol p ≠ p) :
    u.updates pol p = true := by
  by_contra hup
  exact h (u.newPeriod_of_not_updates pol p (by simpa using hup))

/-- Settles O19: a period that changed was updated, which needs a shift and an unmuted channel, and the target then
fits. -/
theorem newPeriodIsAlwaysLegal : Obligations.NewPeriodIsAlwaysLegal := by
  unfold Obligations.NewPeriodIsAlwaysLegal
  intro c s
  refine ⟨_, exec_swpTick c s, fun hne => ?legal⟩
  simp only [State.answer_ch, State.setPeriod_ch, State.setSwp_ch] at hne ⊢
  have hup := Sweep.updates_of_newPeriod_ne hne
  have hstore := Sweep.newPeriod_toNat_of_updates _ _ _ hup
  obtain ⟨_, _, hs, hm⟩ := (Sweep.updates_iff _ _ _).mp hup
  obtain ⟨hsum, hge⟩ := computeTargetPeriod_of_audible hs hm
  refine ⟨hstore, hstore.trans hsum, by omega⟩

/-- A state whose second channel is about to be updated to a period that mutes it: 1135 and its half make 1702. -/
def aboutToMuteItself : State :=
  { State.reset with
    ch1 :=
      { Channel.reset with
        period := 1135
        swp := { Sweep.reset with enabled := true, shiftCount := 1 } } }

/-- Settles O18: `aboutToMuteItself` is unmuted at 1135, and 1702 with its half is above 2047. -/
theorem tickMutedBitCanBeStale : Obligations.TickMutedBitCanBeStale := by
  unfold Obligations.TickMutedBitCanBeStale
  exact ⟨aboutToMuteItself, _, rfl, by decide, by decide, by decide⟩

/-- Settles O36: the mute flag reads the period just written, and below 8 no sweep configuration matters. -/
theorem periodBelowEightMutesAtOnce : Obligations.PeriodBelowEightMutesAtOnce := by
  unfold Obligations.PeriodBelowEightMutesAtOnce
  intro c p s hp
  have hm : ((s.setPeriod c p).answer .nothing).muted c = true := by
    rw [State.answer_muted, State.muted, State.setPeriod_ch]
    exact (isMuted_iff _ _ _).mpr (.inl hp)
  refine ⟨_, (execAll_cons_of_next (exec_perWr c p s) _).trans (execAll_cons_of_next (exec_swpMute c _) _), ?out⟩
  case out =>
    rw [hm]
    rfl

/-- The unit after reset has no shift, so its raw change is the whole period. -/
theorem rawChange_reset (p : Period) : rawChange Channel.reset.swp p = p.toNat :=
  rawChange_eq_period_iff.mpr (.inl rfl)

/-- Settles O3: after reset negate and shift are clear, so the target is twice the period, whatever that is. -/
theorem outputsAfterReset : Obligations.OutputsAfterReset := by
  unfold Obligations.OutputsAfterReset
  intro s c
  have hch : { State.reset with inputs := s.inputs }.ch c = Channel.reset := by
    rw [State.ch_withInputs, State.reset_ch]
  have hnegate : Channel.reset.swp.negateFlag = false := rfl
  have hperiod : Channel.reset.period = Config.resetChPeriod := rfl
  refine ⟨_, exec_rst s, ?volume, ?period, ?target, ?muted⟩
  case volume => rw [State.volume, hch]; rfl
  case period => rw [State.period, hch, hperiod]
  case target =>
    rw [State.targetPeriod, hch, computeTargetPeriod_of_not_negate hnegate, rawChange_reset, hperiod]
    omega
  case muted =>
    rw [State.muted, hch, isMuted_of_not_negate hnegate, rawChange_reset, hperiod]
    omega

end Sys2Proof.Machine
end

section
/-! The two halves of a channel (R138, R153). A command leaves every half but its own as it is, and what it leaves of a
half, and answers, depends on that half alone. That commands on different halves commute (R50), and that the ticks of a
pseudo-instruction may come in any order (R69), follows from these two facts. -/

namespace Sys2Proof.Machine

/-! ### Agreement on a half -/

/-- The two channel records hold the same in that half (R138). -/
def Half.Agree : Half → Channel → Channel → Prop
  | .sweep, k, k' => k.period = k'.period ∧ k.swp = k'.swp
  | .envelope, k, k' => k.env = k'.env

theorem Half.Agree.symm {h : Half} {k k' : Channel} (hk : h.Agree k k') : h.Agree k' k := by
  cases h with
  | sweep => exact hk.imp Eq.symm Eq.symm
  | envelope => exact Eq.symm hk

theorem Half.Agree.trans {h : Half} {k k' k'' : Channel} (hk : h.Agree k k') (hk' : h.Agree k' k'') :
    h.Agree k k'' := by
  cases h with
  | sweep =>
    obtain ⟨hp, hu⟩ := hk
    obtain ⟨hp', hu'⟩ := hk'
    exact ⟨hp.trans hp', hu.trans hu'⟩
  | envelope => exact Eq.trans hk hk'

/-- A channel is its two halves (R15). -/
theorem Half.eq_of_agree {k k' : Channel} (h : ∀ hf : Half, hf.Agree k k') : k = k' := by
  obtain ⟨hp, hu⟩ := h .sweep
  have hg : k.env = k'.env := h .envelope
  cases k
  cases k'
  simp_all

/-! ### What a command does to a half -/

section Frame

variable {c : Chan} {i : Instr} (hrst : footprint i ≠ none)
include hrst

theorem PeriodWrite.eq_of_footprint_ne {k : Channel} {p : Period} (h : PeriodWrite c k i p)
    (hne : footprint i ≠ some (c, .sweep)) : p = k.period := by
  cases h with
  | keep => rfl
  | write | tick => exact absurd rfl hne
  | reset => exact absurd rfl hrst

theorem SweepWrite.eq_of_footprint_ne {u u' : Sweep} (h : SweepWrite c u i u')
    (hne : footprint i ≠ some (c, .sweep)) : u' = u := by
  cases h with
  | keep => rfl
  | write | tick | clock | reload => exact absurd rfl hne
  | reset => exact absurd rfl hrst

theorem EnvelopeWrite.eq_of_footprint_ne {g g' : Envelope} (h : EnvelopeWrite c g i g')
    (hne : footprint i ≠ some (c, .envelope)) : g' = g := by
  cases h with
  | keep => rfl
  | write | start | tick | clock | reload => exact absurd rfl hne
  | reset => exact absurd rfl hrst

/-- The frame: a command other than `RST` leaves every half but its own. -/
theorem channelAfter_agree_of_footprint_ne {h : Half} (k : Channel) (hne : footprint i ≠ some (c, h)) :
    h.Agree (channelAfter i c k) k := by
  obtain ⟨hp, hu, hg⟩ := channelWrites_channelAfter c k i
  cases h with
  | sweep => exact ⟨hp.eq_of_footprint_ne hrst hne, hu.eq_of_footprint_ne hrst hne⟩
  | envelope => exact hg.eq_of_footprint_ne hrst hne

end Frame

/-- What a command leaves of a half depends on that half alone. -/
theorem channelAfter_agree {h : Half} (i : Instr) (c : Chan) {k k' : Channel} (hk : h.Agree k k') :
    h.Agree (channelAfter i c k) (channelAfter i c k') := by
  obtain ⟨p, u, g⟩ := k
  obtain ⟨p', u', g'⟩ := k'
  cases h with
  | sweep =>
    obtain ⟨rfl, rfl⟩ := hk
    cases i with
    | swpMute | swpTgt | swpChg | perRd | envVol | rst => exact ⟨rfl, rfl⟩
    | swpTick c' | swpWr c' | perWr c' | envTick c' | envWr c' | envStart c' =>
      by_cases hc : c' = c <;> simp [channelAfter, hc, Half.Agree]
    | divClk d | divRld d =>
      obtain c' | c' := d <;> by_cases hc : c' = c <;> simp [channelAfter, hc, Half.Agree]
  | envelope =>
    obtain rfl : g = g' := hk
    cases i with
    | swpMute | swpTgt | swpChg | perRd | envVol | rst => rfl
    | swpTick c' | swpWr c' | perWr c' | envTick c' | envWr c' | envStart c' =>
      by_cases hc : c' = c <;> simp [channelAfter, hc, Half.Agree]
    | divClk d | divRld d =>
      obtain c' | c' := d <;> by_cases hc : c' = c <;> simp [channelAfter, hc, Half.Agree]

/-- What a command answers depends on its own half alone. -/
theorem answerOf_eq_of_agree {i : Instr} {c : Chan} {h : Half} {f f' : Chan → Channel}
    (hi : footprint i = some (c, h)) (hf : h.Agree (f c) (f' c)) : answerOf i f = answerOf i f' := by
  cases i with
  | swpWr | perWr | envTick | envWr | envStart | rst | divRld => rfl
  | swpTick | swpMute | swpTgt | swpChg | perRd =>
    cases hi
    obtain ⟨hp, hu⟩ := hf
    simp only [answerOf, hp, hu]
  | envVol =>
    cases hi
    have hg : (f c).env = (f' c).env := hf
    rw [answerOf, answerOf, hg]
  | divClk d =>
    cases d with
    | sweep =>
      cases hi
      obtain ⟨_, hu⟩ := hf
      rw [answerOf, answerOf, hu]
    | envelope =>
      cases hi
      have hg : (f c).env = (f' c).env := hf
      rw [answerOf, answerOf, hg]

/-- Settles O39: the frame and the dependence, each for the channels after the command. -/
theorem commandsStayInsideTheirHalf : Obligations.CommandsStayInsideTheirHalf := by
  unfold Obligations.CommandsStayInsideTheirHalf
  intro i s s' t t' c h hi ht ht'
  have hrst : footprint i ≠ none := by simp [hi]
  have hframe : ∀ c' h', (c', h') ≠ (c, h) → h'.Agree (t.ch c') (s.ch c') := by
    intro c' h' hne
    rw [ch_of_exec ht]
    exact channelAfter_agree_of_footprint_ne hrst _ (by simpa [hi] using hne.symm)
  have hdep : h.Agree (s.ch c) (s'.ch c) → h.Agree (t.ch c) (t'.ch c) ∧ t.out = t'.out := by
    intro hs
    rw [ch_of_exec ht, ch_of_exec ht', out_of_exec ht, out_of_exec ht']
    exact ⟨channelAfter_agree i c hs, answerOf_eq_of_agree hi hs⟩
  refine ⟨fun c' hc => Half.eq_of_agree fun h' => hframe c' h' (by simp [hc]), ?_⟩
  cases h with
  | sweep =>
    refine ⟨hframe c .envelope (by simp), fun hp hu => ?_⟩
    obtain ⟨⟨hp', hu'⟩, hout⟩ := hdep ⟨hp, hu⟩
    exact ⟨hp', hu', hout⟩
  | envelope =>
    obtain ⟨hp, hu⟩ := hframe c .sweep (by simp)
    exact ⟨hp, hu, hdep⟩

/-! ### Commuting commands -/

/-- Two commands on different half channels. -/
def OnDistinctHalves (i j : Instr) : Prop :=
  footprint i ≠ none ∧ footprint j ≠ none ∧ footprint i ≠ footprint j

theorem OnDistinctHalves.symm {i j : Instr} (h : OnDistinctHalves i j) : OnDistinctHalves j i := by
  obtain ⟨hi, hj, hne⟩ := h
  exact ⟨hj, hi, hne.symm⟩

/-- On each half at least one of the two commands does nothing. -/
theorem channelAfter_comm {i j : Instr} (h : OnDistinctHalves i j) (c : Chan) (k : Channel) :
    channelAfter j c (channelAfter i c k) = channelAfter i c (channelAfter j c k) := by
  obtain ⟨hi, hj, hne⟩ := h
  refine Half.eq_of_agree fun hf => ?_
  by_cases hown : footprint i = some (c, hf)
  case pos =>
    have hj' : footprint j ≠ some (c, hf) := fun hj' => hne (hown.trans hj'.symm)
    exact (channelAfter_agree_of_footprint_ne hj _ hj').trans
      (channelAfter_agree i c (channelAfter_agree_of_footprint_ne hj k hj')).symm
  case neg =>
    exact (channelAfter_agree j c (channelAfter_agree_of_footprint_ne hi k hown)).trans
      (channelAfter_agree_of_footprint_ne hi _ hown).symm

/-- A command answers the same after one on another half. -/
theorem answerOf_after_distinct {i j : Instr} (h : OnDistinctHalves i j) (f : Chan → Channel) :
    answerOf j (fun c => channelAfter i c (f c)) = answerOf j f := by
  obtain ⟨hi, hj, hne⟩ := h
  obtain ⟨⟨c, hf⟩, hown⟩ := Option.ne_none_iff_exists'.mp hj
  exact answerOf_eq_of_agree hown (channelAfter_agree_of_footprint_ne hi _ fun hi' => hne (hi'.trans hown.symm))

/-- A query writes no channel (R45). -/
theorem channelAfter_of_isQuery {i : Instr} (h : isQuery i = true) (c : Chan) (k : Channel) :
    channelAfter i c k = k := by
  cases i with
  | swpMute | swpTgt | swpChg | perRd | envVol => rfl
  | _ => cases h

/-- The channels after a command, as one function. -/
theorem ch_eq_of_exec {i : Instr} {s t : State} (h : exec i s = .next t) :
    t.ch = fun c => channelAfter i c (s.ch c) := funext (ch_of_exec h)

/-- Settles O40: commands on different halves commute by the frame, queries by leaving every channel. -/
theorem disjointCommandsCommute : Obligations.DisjointCommandsCommute := by
  unfold Obligations.DisjointCommandsCommute
  intro i j s h
  obtain ⟨t, ht⟩ := exec_completes i s
  obtain ⟨tt, htt⟩ := exec_completes j t
  obtain ⟨u, hu⟩ := exec_completes j s
  obtain ⟨uu, huu⟩ := exec_completes i u
  refine ⟨t, tt, u, uu, ht, htt, hu, huu, ?_⟩
  simp only [ch_eq_of_exec htt, ch_eq_of_exec ht, ch_eq_of_exec huu, ch_eq_of_exec hu, out_of_exec ht,
    out_of_exec htt, out_of_exec hu, out_of_exec huu]
  rcases h with (hdistinct : OnDistinctHalves i j) | ⟨hi, hj⟩
  · exact ⟨fun c => channelAfter_comm hdistinct c _, (answerOf_after_distinct hdistinct.symm _).symm,
      answerOf_after_distinct hdistinct _⟩
  · simp only [channelAfter_of_isQuery hi, channelAfter_of_isQuery hj, implies_true, and_self]

/-- A query or an idempotent write leaves a channel that it has written. -/
theorem channelAfter_idem {i : Instr} (h : isQuery i = true ∨ isIdempotentWrite i = true) (c : Chan) (k : Channel) :
    channelAfter i c (channelAfter i c k) = channelAfter i c k := by
  cases i with
  | swpMute | swpTgt | swpChg | perRd | envVol | rst => rfl
  | swpWr c' | perWr c' | envWr c' | envStart c' =>
    by_cases hc : c' = c <;>
      simp [channelAfter, hc, Sweep.onRegisterWrite, Envelope.configure, Envelope.setStartFlag]
  | swpTick | envTick | divClk | divRld => simp [isQuery, isIdempotentWrite] at h

/-- An idempotent write answers nothing. -/
theorem answerOf_of_isIdempotentWrite {i : Instr} (h : isIdempotentWrite i = true) (f : Chan → Channel) :
    answerOf i f = .nothing := by
  cases i with
  | swpWr | perWr | envWr | envStart | rst => rfl
  | _ => cases h

/-- Settles O41: the second issue finds the channels already as the first left them, and answers from the same ones or
nothing. -/
theorem queriesArePureAndWritesIdempotent : Obligations.QueriesArePureAndWritesIdempotent := by
  unfold Obligations.QueriesArePureAndWritesIdempotent
  intro i s h
  obtain ⟨t, ht⟩ := exec_completes i s
  obtain ⟨u, hu⟩ := exec_completes i t
  have hpure : isQuery i = true → t.ch = s.ch := fun hq => by
    simp only [ch_eq_of_exec ht, channelAfter_of_isQuery hq]
  have hut : u = t := by
    refine State.ext_channels (fun c => ?ch) (inputs_of_exec hu) ?out
    case ch => rw [ch_of_exec hu, ch_of_exec ht, channelAfter_idem h]
    case out =>
      rw [out_of_exec hu, out_of_exec ht]
      rcases h with hq | hw
      · rw [hpure hq]
      · rw [answerOf_of_isIdempotentWrite hw, answerOf_of_isIdempotentWrite hw]
  exact ⟨t, ht, hut ▸ hu, fun hq => congrFun (hpure hq)⟩

/-! ### The pseudo-instructions -/

/-- The channels after a run are those of the commands' effects, first to last (R48). -/
theorem execAll_completes (l : List Instr) (s : State) :
    ∃ t, execAll l s = .next t ∧ ∀ c, t.ch c = l.foldl (fun k i => channelAfter i c k) (s.ch c) := by
  induction l generalizing s with
  | nil => exact ⟨s, rfl, fun _ => rfl⟩
  | cons i l ih =>
    obtain ⟨r, hr⟩ := exec_completes i s
    obtain ⟨t, ht, hch⟩ := ih r
    refine ⟨t, (execAll_cons_of_next hr l).trans ht, fun c => ?_⟩
    rw [hch c, ch_of_exec hr, List.foldl_cons]

/-- No two ticks of an expansion are on the same half channel (R69). -/
theorem distinct_of_mem_expand (p : Pseudo) :
    ∀ i ∈ p.expand, ∀ j ∈ p.expand, i = j ∨ OnDistinctHalves i j := by
  cases p <;> simp [Pseudo.expand, OnDistinctHalves, footprint]

/-- Settles O42: a run is a fold of effects, and the effects of one expansion commute pairwise. -/
theorem pseudoExpansionOrderIsFree : Obligations.PseudoExpansionOrderIsFree := by
  unfold Obligations.PseudoExpansionOrderIsFree
  intro p l s hperm
  obtain ⟨t, ht, hch⟩ := execAll_completes p.expand s
  obtain ⟨t', ht', hch'⟩ := execAll_completes l s
  refine ⟨t, t', ht, ht', fun c => ?_⟩
  rw [hch c, hch' c]
  refine (hperm.symm.foldl_eq' (fun i hi j hj k => ?_) _).symm
  rcases distinct_of_mem_expand p i hi j hj with rfl | hdistinct
  · rfl
  · exact channelAfter_comm hdistinct c k

/-- Settles O43: no tick of an expansion writes what another's answer is read from. -/
theorem pseudoTicksAnswerInExpansionOrder : Obligations.PseudoTicksAnswerInExpansionOrder := by
  unfold Obligations.PseudoTicksAnswerInExpansionOrder
  intro s
  exact ⟨_, _, exec_swpTick .ch0 s, exec_swpTick .ch1 s, rfl, rfl, rfl⟩

end Sys2Proof.Machine
end

section
/-! Steps and runs (R48, R137, R156). A step takes the first input and runs what it decodes to; so a run on encoded
commands is the fold of their effects, and only a reserved input stops one. -/

namespace Sys2Proof.Machine

/-! ### One step -/

theorem step_of_instr {s : State} {inp : Input} {rest : List Input} {i : Instr} (hin : s.inputs = inp :: rest)
    (hd : decodeInput inp = .instr i) : step s = exec i { s with inputs := rest } := by
  simp [step, takeInput_cons s hin, hd]

theorem step_of_no_input {s : State} (h : s.inputs = []) : step s = .next s := by
  simp [step, takeInput_nil s h, idleBlock]

/-- Settles O53: each clause is what `step` does with the list of inputs. -/
theorem stepRunsTheDecodedInstruction : Obligations.StepRunsTheDecodedInstruction := by
  unfold Obligations.StepRunsTheDecodedInstruction
  exact ⟨fun s inp rest i => step_of_instr, fun s => step_of_no_input⟩

/-- Settles O48: the select sent next is taken from the state it was sent to, and decodes as R66's table says. -/
theorem dp2SelectsAtAPort : Obligations.Dp2SelectsAtAPort := by
  unfold Obligations.Dp2SelectsAtAPort
  intro d s
  exact ⟨rfl, step_sendNext_of_instr s rfl, step_sendNext_of_instr s rfl, rfl⟩

theorem decodeInput_tableInput {nbits w : Nat} {i : Instr} (h : decodeTableWord nbits w = some i) :
    decodeInput (tableInput nbits w) = .instr i := by
  unfold decodeTableWord at h
  split at h
  case h_1 hd => cases h; exact hd
  case h_2 => cases h

/-- Settles O54: the row's bits are sent as the input that `decodeTableWord` reads. -/
theorem withFetchWordRunsTheRow : Obligations.WithFetchWordRunsTheRow := by
  unfold Obligations.WithFetchWordRunsTheRow
  exact fun nbits w i s h => step_sendNext_of_instr s (decodeInput_tableInput h)

/-! ### Runs of steps -/

/-- The inputs still to come neither change what a command does nor are changed by it. -/
theorem exec_withInputs {i : Instr} {s t : State} (h : exec i s = .next t) (l : List Input) :
    exec i { s with inputs := l } = .next { t with inputs := l } := by
  obtain ⟨u, hu⟩ := exec_completes i { s with inputs := l }
  have heq : u = { t with inputs := l } := by
    refine State.ext_channels (fun c => ?ch) (by rw [inputs_of_exec hu]) ?out
    case ch => rw [ch_of_exec hu, State.ch_withInputs s, State.ch_withInputs t, ch_of_exec h]
    case out =>
      rw [out_of_exec hu]
      exact (congrArg (answerOf i) (funext fun c => State.ch_withInputs s c l)).trans (out_of_exec h).symm
  rw [hu, heq]

/-- A step that answers a next state hands it to the rest of the run. -/
theorem run_succ_of_next {M : Host.Core} {n : Nat} {s t : M.State} (h : M.step s = .next t) :
    M.run (n + 1) s = M.run n t := by
  simp [Host.Core.run, h]

/-- Settles O55: by induction on the commands; each step runs the first one and leaves the others' encodings. -/
theorem runIsTheFoldOfTheCommands : Obligations.RunIsTheFoldOfTheCommands := by
  unfold Obligations.RunIsTheFoldOfTheCommands
  intro is
  induction is with
  | nil =>
    intro rest s hin
    obtain rfl : s.inputs = rest := hin
    exact ⟨s, rfl, rfl⟩
  | cons i is ih =>
    intro rest s hin
    obtain ⟨r, hr⟩ := exec_completes i { s with inputs := is.map encode ++ rest }
    obtain ⟨t, hfold, hrun⟩ := ih rest r (inputs_of_exec hr)
    have hstep : step s = .next r := (step_of_instr hin (decodeInput_encode i)).trans hr
    exact ⟨t, (execAll_cons_of_next (exec_withInputs hr rest) is).trans hfold,
      (run_succ_of_next (M := core) hstep).trans hrun⟩

/-! ### Defined inputs -/

/-- The bits of a payload from `n` up are clear exactly below `2 ^ n`. -/
theorem highBits_eq_zero_iff (pay : BitVec 11) (n : Nat) (hn : n ≤ 11) :
    pay.extractLsb' n (11 - n) = 0 ↔ pay.toNat < 2 ^ n := by
  have hpow : 2 ^ n * 2 ^ (11 - n) = 2 ^ 11 := by rw [← Nat.pow_add, Nat.add_sub_of_le hn]
  have hdiv : pay.toNat / 2 ^ n < 2 ^ (11 - n) := Nat.div_lt_of_lt_mul (hpow ▸ pay.isLt)
  refine (counter_eq_zero_iff_toNat _).trans ?_
  rw [extractLsb'_toNat_eq, Nat.mod_eq_of_lt hdiv, Nat.div_eq_zero_iff_lt (Nat.two_pow_pos n)]

/-- Fields that `definedWord` accepts meet the condition under which their opcode decodes to a command (R57, R64). -/
theorem decodeFields_of_definedWord {opc : BitVec 4} {b : BitVec 1} {pay : BitVec 11}
    (h : definedWord (cmd16 opc b pay) = true) : ∃ i, decodeFields opc b pay = .instr i := by
  have hchan := cmd16_getLsbD_eleven opc b pay
  rw [definedWord, wordOpc_cmd16, wordPay_cmd16] at h
  rcases opcode_cases opc with hundef | hplain | hopc | hopc | hopc | hopc
  case inl =>
    simp only [List.mem_cons, List.not_mem_nil, or_false] at hundef
    rcases hundef with hopc | hopc | hopc | hopc <;> simp [hopc] at h
  case inr.inl =>
    rcases opcode_of_plain hplain with rfl | rfl | rfl | rfl | rfl | rfl | rfl | rfl <;>
      exact ⟨_, if_pos (eq_of_beq h)⟩
  case inr.inr.inl =>
    obtain rfl : opc = 0x2 := BitVec.eq_of_toNat_eq hopc
    exact ⟨_, if_pos ((highBits_eq_zero_iff pay 8 (by decide)).mp (eq_of_beq h))⟩
  case inr.inr.inr.inl =>
    obtain rfl : opc = 0x6 := BitVec.eq_of_toNat_eq hopc
    exact ⟨_, rfl⟩
  case inr.inr.inr.inr.inl =>
    obtain rfl : opc = 0x9 := BitVec.eq_of_toNat_eq hopc
    exact ⟨_, if_pos ((highBits_eq_zero_iff pay 6 (by decide)).mp (eq_of_beq h))⟩
  case inr.inr.inr.inr.inr =>
    obtain rfl : opc = 0xC := BitVec.eq_of_toNat_eq hopc
    obtain ⟨hpay, hbit⟩ := Bool.and_eq_true_iff.mp h
    have hb : b = 0 := by
      by_contra hb
      cases (hchan.mpr hb).symm.trans (eq_of_beq hbit)
    exact ⟨_, if_pos ⟨hb, eq_of_beq hpay⟩⟩

/-- A defined input has a meaning: a command, or the idle select. -/
theorem decodeInput_of_definedInput {inp : Input} (h : definedInput inp = true) :
    (∃ i, decodeInput inp = .instr i) ∨ ∃ d, decodeInput inp = .idle d := by
  cases inp with
  | resetSignal => exact .inl ⟨_, rfl⟩
  | cmd w =>
    rw [definedInput, ← cmd16_fields w] at h
    obtain ⟨i, hi⟩ := decodeFields_of_definedWord h
    exact .inl ⟨i, by rw [decodeInput, ← cmd16_fields w, decodeCmd16_cmd16, hi]⟩
  | dp2 d sel =>
    rcases select_cases sel with rfl | rfl | rfl | rfl
    · exact .inr ⟨_, rfl⟩
    · exact .inl ⟨_, rfl⟩
    · exact .inl ⟨_, rfl⟩
    · cases h

/-- A step either completes, having taken at most the first input, or has refused an input that is not defined. -/
theorem step_completes_or_refuses (s : State) :
    (∃ t, step s = .next t ∧ t.inputs = s.inputs.tail) ∨
      ∃ inp rest, s.inputs = inp :: rest ∧ definedInput inp = false ∧ ∃ r, step s = .refused r := by
  rcases step_cases s with ⟨hin, h⟩ | ⟨inp, rest, hin, ⟨i, _, h⟩ | ⟨d, _, h⟩ | ⟨w, hd, h⟩ | ⟨d, hd, h⟩⟩
  case inl => exact .inl ⟨s, h, by rw [hin, List.tail_nil]⟩
  case inr.inl =>
    obtain ⟨t, ht⟩ := exec_completes i { s with inputs := rest }
    exact .inl ⟨t, h.trans ht, by rw [inputs_of_exec ht, hin, List.tail_cons]⟩
  case inr.inr.inl => exact .inl ⟨_, h, by rw [hin, List.tail_cons]⟩
  all_goals
    refine .inr ⟨inp, rest, hin, Bool.eq_false_iff.mpr fun hdef => ?_, _, h⟩
    rcases decodeInput_of_definedInput hdef with ⟨_, hd'⟩ | ⟨_, hd'⟩ <;> cases hd.symm.trans hd'

/-- Defined inputs stay defined as a step takes the first of them. -/
theorem step_of_definedInputs {s : State} (h : s.definedInputs) : ∃ t, step s = .next t ∧ t.definedInputs := by
  rcases step_completes_or_refuses s with ⟨t, ht, hin⟩ | ⟨inp, rest, hin, hundef, _⟩
  · exact ⟨t, ht, fun inp hmem => h inp (List.mem_of_mem_tail (hin ▸ hmem))⟩
  · have hdef := h inp (by rw [hin]; exact List.mem_cons_self)
    rw [hundef] at hdef
    cases hdef

/-- Settles O56: defined inputs keep every step of a run from being refused, by induction on its length. -/
theorem onlyReservedInputsStopTheMachine : Obligations.OnlyReservedInputsStopTheMachine := by
  unfold Obligations.OnlyReservedInputsStopTheMachine
  refine ⟨fun n => ?runs, fun s => ?stops⟩
  case runs =>
    induction n with
    | zero => exact fun s _ => ⟨s, rfl⟩
    | succ n ih =>
      intro s hs
      obtain ⟨t, ht, htdef⟩ := step_of_definedInputs hs
      obtain ⟨u, hu⟩ := ih t htdef
      exact ⟨u, (run_succ_of_next (M := core) ht).trans hu⟩
  case stops => exact (step_completes_or_refuses s).imp_left fun ⟨t, ht, _⟩ => ⟨t, ht⟩

end Sys2Proof.Machine
end

section
/-! A Divider over many clocks (R77): each clock above zero counts down, so it takes the whole period to reach the one
that fires. -/

namespace Sys2Proof.Machine

/-- What `DIV.CLK` does to any of the four instances, in numbers (R75). -/
theorem divClk_of_exec {d : DividerId} {s t : State} (h : exec (.divClk d) s = .next t) :
    t.dividerInput d = s.dividerInput d ∧
      t.counter d = (if s.counter d = 0 then s.dividerInput d else s.counter d - 1) ∧
      t.out = .fired (decide (s.counter d = 0)) := by
  cases d with
  | sweep c =>
    cases h
    refine ⟨by simp [State.dividerInput], ?_, ?_⟩
    · rw [State.counter, State.answer_ch, State.setSwp_ch]
      exact Divider.clock_counter_toNat _ _
    · rw [State.answer_out, Divider.clock_fired]
      exact congrArg Output.fired (decide_eq_decide.mpr (counter_eq_zero_iff_toNat _))
  | envelope c =>
    cases h
    refine ⟨by simp [State.dividerInput], ?_, ?_⟩
    · rw [State.counter, State.answer_ch, State.setEnv_ch]
      exact Divider.clock_counter_toNat _ _
    · rw [State.answer_out, Divider.clock_fired]
      exact congrArg Output.fired (decide_eq_decide.mpr (counter_eq_zero_iff_toNat _))

/-- Until the counter has reached zero no clock fires. -/
theorem execTimes_divClk_counts_down {d : DividerId} {s : State} {n : Nat} (hn : n ≤ s.counter d) :
    ∃ t, execTimes n (.divClk d) s = .next t ∧ t.dividerInput d = s.dividerInput d ∧
      t.counter d = s.counter d - n ∧ (0 < n → t.out = .fired false) := by
  induction n with
  | zero => exact ⟨s, rfl, rfl, rfl, fun h => absurd h (by decide)⟩
  | succ n ih =>
    obtain ⟨r, hr, hinput, hcounter, _⟩ := ih (by omega)
    obtain ⟨t, ht⟩ := exec_completes (.divClk d) r
    obtain ⟨hinput', hcounter', hout⟩ := divClk_of_exec ht
    have hne : r.counter d ≠ 0 := by omega
    refine ⟨t, (execTimes_succ_of_next hr).trans ht, hinput'.trans hinput, ?counter, fun _ => ?out⟩
    case counter =>
      rw [hcounter', if_neg hne]
      omega
    case out => rw [hout, decide_eq_false hne]

/-- Settles O6: the period's clocks bring the counter to zero, and the next one finds it there. -/
theorem dividerFiresOncePerPeriodPlusOne : Obligations.DividerFiresOncePerPeriodPlusOne := by
  unfold Obligations.DividerFiresOncePerPeriodPlusOne
  intro d s hs
  refine ⟨fun n hn => ?quiet, ?fires⟩
  case quiet =>
    obtain ⟨t, ht, _, hcounter, hout⟩ := execTimes_divClk_counts_down (n := n) (hn.trans_eq hs.symm)
    exact ⟨t, ht, by rw [hcounter, hs], hout⟩
  case fires =>
    obtain ⟨r, hr, hinput, hcounter, _⟩ := execTimes_divClk_counts_down hs.ge
    obtain ⟨t, ht⟩ := exec_completes (.divClk d) r
    obtain ⟨_, hcounter', hout⟩ := divClk_of_exec ht
    have hzero : r.counter d = 0 := by omega
    refine ⟨t, (execTimes_succ_of_next hr).trans ht, ?_, ?_⟩
    · rw [hcounter', if_pos hzero, hinput]
    · rw [hout, decide_eq_true hzero]

end Sys2Proof.Machine
end

section
/-! The sweep over many ticks (R107, R110). The counter is counted down with the unit otherwise as it was, so a unit at
a tick is the first one with its counter set. -/

namespace Sys2Proof.Machine

/-! ### A muted channel -/

/-- The period after a tick of its channel (R100). -/
theorem period_of_swpTick {c : Chan} {s t : State} (h : exec (.swpTick c) s = .next t) :
    t.period c = (s.ch c).swp.newPeriod (Config.negatePolarity c) (s.period c) := by
  rw [State.period, ch_of_exec h, channelAfter, if_pos rfl, State.period]

/-- The unit after a tick of its channel (R100). -/
theorem swp_of_swpTick {c : Chan} {s t : State} (h : exec (.swpTick c) s = .next t) :
    (t.ch c).swp = (s.ch c).swp.maintainDivider := by
  rw [ch_of_exec h, channelAfter, if_pos rfl]

/-- A tick of a muted channel changes the divider only, which the mute flag does not read. -/
theorem swpTick_of_muted {c : Chan} {s t : State} (h : exec (.swpTick c) s = .next t) (hm : s.muted c = true) :
    t.period c = s.period c ∧ t.muted c = true := by
  have hkeep : (s.ch c).swp.newPeriod (Config.negatePolarity c) (s.period c) = s.period c := by
    by_contra hne
    obtain ⟨_, _, _, hm'⟩ := (Sweep.updates_iff _ _ _).mp (Sweep.updates_of_newPeriod_ne hne)
    cases hm.symm.trans hm'
  have hperiod : t.period c = s.period c := (period_of_swpTick h).trans hkeep
  refine ⟨hperiod, ?_⟩
  rw [State.muted, swp_of_swpTick h, ← hm]
  exact (isMuted_congr _ _ (Sweep.maintainDivider_shiftCount _) (Sweep.maintainDivider_negateFlag _)).trans
    (congrArg _ hperiod)

/-- Settles O22: by induction, as the mute flag is again that of the state before. -/
theorem mutedSweepStaysFrozen : Obligations.MutedSweepStaysFrozen := by
  unfold Obligations.MutedSweepStaysFrozen
  intro c s n hm
  induction n with
  | zero => exact ⟨s, rfl, rfl, hm⟩
  | succ n ih =>
    obtain ⟨r, hr, hperiod, hmuted⟩ := ih
    obtain ⟨t, ht⟩ := exec_completes (.swpTick c) r
    obtain ⟨hperiod', hmuted'⟩ := swpTick_of_muted ht hmuted
    exact ⟨t, (execTimes_succ_of_next hr).trans ht, hperiod'.trans hperiod, hmuted'⟩

/-! ### A unit with its counter set -/

/-- The unit with its divider at `k`. -/
def Sweep.withCounter (u : Sweep) (k : Nat) : Sweep := { u with div := ⟨BitVec.ofNat 3 k⟩ }

section Countdown

variable (pol : Polarity) (u : Sweep) (p : Period) {k : Nat}

theorem Sweep.withCounter_self : u.withCounter u.div.counter.toNat = u := by simp [Sweep.withCounter]

theorem Sweep.withCounter_counter_toNat (hk : k < 8) : (u.withCounter k).div.counter.toNat = k := by
  rw [Sweep.withCounter, BitVec.toNat_ofNat, Nat.mod_eq_of_lt hk]

/-- A counter one above `k`, decremented. -/
theorem ofNat_succ_sub_one (w k : Nat) : BitVec.ofNat w (k + 1) - 1#w = BitVec.ofNat w k := by
  rw [BitVec.ofNat_add, BitVec.add_sub_cancel]

/-- Above zero and with no reload pending, a tick counts down (R100). -/
theorem Sweep.maintainDivider_withCounter_succ (hk : k + 1 < 8) (hflag : u.reloadFlag = false) :
    (u.withCounter (k + 1)).maintainDivider = u.withCounter k := by
  have hcond : ¬((u.withCounter (k + 1)).div.counter.toNat = 0 ∨ (u.withCounter (k + 1)).reloadFlag = true) := by
    rw [u.withCounter_counter_toNat hk, Sweep.withCounter, hflag]
    simp
  rw [Sweep.maintainDivider_eq, if_neg hcond]
  exact congrArg (fun x => { u with div := ⟨x⟩ }) (ofNat_succ_sub_one 3 k)

/-- At zero it reloads, whether or not a reload is pending (R100). -/
theorem Sweep.maintainDivider_withCounter_zero :
    (u.withCounter 0).maintainDivider = { u with div := ⟨u.dividerPeriod⟩, reloadFlag := false } := by
  rw [Sweep.maintainDivider_eq, if_pos (.inl rfl)]
  rfl

/-- A reload leaves a unit that has just been reloaded. -/
theorem Sweep.reloaded_eq_self (hcounter : u.div.counter = u.dividerPeriod) (hflag : u.reloadFlag = false) :
    { u with div := ⟨u.dividerPeriod⟩, reloadFlag := false } = u := by
  obtain ⟨_, _, _, _, ⟨_⟩, _⟩ := u
  cases hcounter
  cases hflag
  rfl

/-- Above zero no tick updates the period (R101). -/
theorem Sweep.newPeriod_withCounter_succ (hk : k + 1 < 8) : (u.withCounter (k + 1)).newPeriod pol p = p := by
  rw [Sweep.newPeriod_eq, u.withCounter_counter_toNat hk]
  simp

/-- At zero the period becomes the target unless the unit is disabled, has no shift or is muted (R101). The counter is
no part of the target. -/
theorem Sweep.newPeriod_withCounter_zero :
    (((u.withCounter 0).newPeriod pol p).toNat : Int) =
      if u.enabled = true ∧ u.shiftCount ≠ 0 ∧ isMuted pol u p = false then computeTargetPeriod pol u p
      else p.toNat := by
  have hgate : (u.withCounter 0).updates pol p = true ↔
      u.enabled = true ∧ u.shiftCount ≠ 0 ∧ isMuted pol u p = false :=
    ((u.withCounter 0).updates_iff pol p).trans (and_iff_right rfl)
  by_cases h : (u.withCounter 0).updates pol p = true
  · rw [if_pos (hgate.mp h), Sweep.newPeriod_toNat_of_updates _ _ _ h]
    rfl
  · rw [if_neg (hgate.not.mp h), Sweep.newPeriod_of_not_updates _ _ _ (by simpa using h)]

end Countdown

/-- Ticks that do not find the counter at zero change nothing of the period and the unit but the counter. -/
theorem execTimes_swpTick_counts_down {c : Chan} {s : State} (hflag : (s.ch c).swp.reloadFlag = false) {n : Nat}
    (hn : n ≤ (s.ch c).swp.div.counter.toNat) :
    ∃ t, execTimes n (.swpTick c) s = .next t ∧ t.period c = s.period c ∧
      (t.ch c).swp = (s.ch c).swp.withCounter ((s.ch c).swp.div.counter.toNat - n) := by
  have hlt := (s.ch c).swp.div.counter.isLt
  induction n with
  | zero => exact ⟨s, rfl, rfl, by rw [Nat.sub_zero, Sweep.withCounter_self]⟩
  | succ n ih =>
    obtain ⟨r, hr, hperiod, hswp⟩ := ih (by omega)
    obtain ⟨t, ht⟩ := exec_completes (.swpTick c) r
    obtain ⟨k, hk, hk'⟩ : ∃ k, (s.ch c).swp.div.counter.toNat - n = k + 1 ∧
        (s.ch c).swp.div.counter.toNat - (n + 1) = k := ⟨_, by omega, rfl⟩
    rw [hk] at hswp
    refine ⟨t, (execTimes_succ_of_next hr).trans ht, ?period, ?unit⟩
    case period =>
      rw [period_of_swpTick ht, hswp, hperiod, Sweep.newPeriod_withCounter_succ _ _ _ (by omega)]
    case unit => rw [swp_of_swpTick ht, hswp, Sweep.maintainDivider_withCounter_succ _ (by omega) hflag, hk']

/-- Settles O21: the period's ticks count down to zero, and the tick that finds it there reloads the divider and passes
the gate of R101. -/
theorem sweepUpdatesOncePerPeriodPlusOne : Obligations.SweepUpdatesOncePerPeriodPlusOne := by
  unfold Obligations.SweepUpdatesOncePerPeriodPlusOne
  intro c s
  dsimp only
  intro hcounter hflag
  have hlt := (s.ch c).swp.dividerPeriod.isLt
  refine ⟨fun n hn => ?quiet, ?update⟩
  case quiet =>
    obtain ⟨t, ht, hperiod, hswp⟩ := execTimes_swpTick_counts_down hflag (n := n) (hcounter ▸ hn)
    refine ⟨t, ht, hperiod, ?_⟩
    rw [State.counter, hswp, Sweep.withCounter_counter_toNat _ (by omega), hcounter]
  case update =>
    obtain ⟨r, hr, hperiod, hswp⟩ := execTimes_swpTick_counts_down hflag (congrArg BitVec.toNat hcounter).ge
    obtain ⟨t, ht⟩ := exec_completes (.swpTick c) r
    rw [hcounter, Nat.sub_self] at hswp
    refine ⟨t, (execTimes_succ_of_next hr).trans ht, ?unit, ?period⟩
    case unit =>
      rw [swp_of_swpTick ht, hswp, Sweep.maintainDivider_withCounter_zero, Sweep.reloaded_eq_self _ hcounter hflag]
    case period =>
      rw [period_of_swpTick ht, hswp, hperiod]
      exact Sweep.newPeriod_withCounter_zero _ _ _

end Sys2Proof.Machine
end

section
/-! The envelope over many ticks (R120, R121, R125, R167). Ticks of a channel iterate the generator's clock; from a
counter `k` with no start pending, `k` clocks count down and the next one steps the decay counter, so `V + 1` clocks
after a reload are one decay step. -/

namespace Sys2Proof.Machine

/-! ### One tick with no start pending -/

section Tick

variable {g : Envelope} (hstart : g.startFlag = false)
include hstart

/-- Found above zero, the divider counts down and nothing else changes (R115). -/
theorem Envelope.onQuarterFrameClock_of_ne_zero (hc : g.div.counter ≠ 0#4) :
    g.onQuarterFrameClock = { g with div := ⟨g.div.counter - 1#4⟩ } := by
  simp [Envelope.onQuarterFrameClock, hstart, Divider.clock_of_ne_zero _ _ hc]

/-- Found at zero, it is reloaded and the decay counter steps (R115). -/
theorem Envelope.onQuarterFrameClock_of_zero (hc : g.div.counter = 0#4) :
    g.onQuarterFrameClock = { g with div := ⟨g.V⟩, decayLevelCounter := g.nextDecay } := by
  simp [Envelope.onQuarterFrameClock, hstart, Divider.clock_of_zero _ _ hc]

end Tick

/-! ### Runs of ticks -/

/-- The generator after a tick of its channel (R114). -/
theorem env_of_envTick {c : Chan} {s t : State} (h : exec (.envTick c) s = .next t) :
    (t.ch c).env = (s.ch c).env.onQuarterFrameClock := by
  rw [ch_of_exec h, channelAfter, if_pos rfl]

theorem execTimes_envTick (c : Chan) (s : State) (n : Nat) :
    ∃ t, execTimes n (.envTick c) s = .next t ∧
      (t.ch c).env = Envelope.onQuarterFrameClock^[n] (s.ch c).env := by
  induction n with
  | zero => exact ⟨s, rfl, rfl⟩
  | succ n ih =>
    obtain ⟨r, hr, henv⟩ := ih
    obtain ⟨t, ht⟩ := exec_completes (.envTick c) r
    refine ⟨t, (execTimes_succ_of_next hr).trans ht, ?_⟩
    rw [env_of_envTick ht, henv, Function.iterate_succ_apply']

/-! ### The constant-volume flag -/

/-- The generator in constant-volume mode. -/
def Envelope.withConstantVolume (g : Envelope) : Envelope := { g with constantVolumeFlag := true }

/-- A tick does not read the constant-volume flag (R125). -/
theorem Envelope.withConstantVolume_semiconj :
    Function.Semiconj Envelope.withConstantVolume Envelope.onQuarterFrameClock Envelope.onQuarterFrameClock := by
  intro g
  rcases Bool.eq_false_or_eq_true g.startFlag with hs | hs
  · rw [g.onQuarterFrameClock_of_startFlag hs, g.withConstantVolume.onQuarterFrameClock_of_startFlag hs]
    rfl
  · by_cases hc : g.div.counter = 0#4
    · rw [g.onQuarterFrameClock_of_zero hs hc, g.withConstantVolume.onQuarterFrameClock_of_zero hs hc]
      rfl
    · rw [g.onQuarterFrameClock_of_ne_zero hs hc, g.withConstantVolume.onQuarterFrameClock_of_ne_zero hs hc]
      rfl

theorem Envelope.iterate_onQuarterFrameClock_V (g : Envelope) (n : Nat) :
    (Envelope.onQuarterFrameClock^[n] g).V = g.V := by
  induction n with
  | zero => rfl
  | succ n ih => rw [Function.iterate_succ_apply', Envelope.onQuarterFrameClock_V, ih]

/-- Settles O32: setting the flag commutes with a tick, so with any number of them. -/
theorem constantVolumeNeverPausesTheDecay : Obligations.ConstantVolumeNeverPausesTheDecay := by
  unfold Obligations.ConstantVolumeNeverPausesTheDecay
  intro c s n
  obtain ⟨t, ht, henv⟩ := execTimes_envTick c s n
  obtain ⟨t', ht', henv'⟩ := execTimes_envTick c (s.setEnv c (s.ch c).env.withConstantVolume) n
  have hconst : (t'.ch c).env = (t.ch c).env.withConstantVolume := by
    rw [henv', henv, State.setEnv_ch]
    exact ((Envelope.withConstantVolume_semiconj.iterate_right n) _).symm
  refine ⟨t, t', ht, ht', hconst, ?volume⟩
  case volume =>
    rw [State.volume, hconst, ← (s.ch c).env.iterate_onQuarterFrameClock_V n, ← henv]
    rfl

/-! ### Counting down -/

section Countdown

variable {g : Envelope}

/-- The generator with its divider at `k`. -/
def Envelope.withCounter (g : Envelope) (k : Nat) : Envelope := { g with div := ⟨BitVec.ofNat 4 k⟩ }

theorem Envelope.withCounter_self (g : Envelope) : g.withCounter g.div.counter.toNat = g := by
  simp [Envelope.withCounter]

theorem Envelope.withCounter_counter_toNat {k : Nat} (hk : k < 16) :
    (g.withCounter k).div.counter.toNat = k := by
  rw [Envelope.withCounter, BitVec.toNat_ofNat, Nat.mod_eq_of_lt hk]

/-- The generator one decay step later (R114). -/
def Envelope.decayStep (g : Envelope) : Envelope := { g with decayLevelCounter := g.nextDecay }

variable (hstart : g.startFlag = false)
include hstart

/-- Above zero a tick counts down (R115). -/
theorem Envelope.onQuarterFrameClock_withCounter_succ {k : Nat} (hk : k + 1 < 16) :
    (g.withCounter (k + 1)).onQuarterFrameClock = g.withCounter k := by
  have hc : (g.withCounter (k + 1)).div.counter ≠ 0#4 := by
    rw [ne_eq, counter_eq_zero_iff_toNat, Envelope.withCounter_counter_toNat hk]
    omega
  refine (Envelope.onQuarterFrameClock_of_ne_zero (g := g.withCounter (k + 1)) hstart hc).trans ?_
  exact congrArg (fun x => { g with div := ⟨x⟩ }) (ofNat_succ_sub_one 4 k)

/-- At zero it reloads the divider and steps the decay counter (R115). -/
theorem Envelope.onQuarterFrameClock_withCounter_zero :
    (g.withCounter 0).onQuarterFrameClock = g.decayStep.withCounter g.V.toNat := by
  refine (Envelope.onQuarterFrameClock_of_zero (g := g.withCounter 0) hstart rfl).trans ?_
  rw [Envelope.withCounter, Envelope.withCounter, Envelope.decayStep, BitVec.ofNat_toNat, BitVec.setWidth_eq]
  rfl

theorem Envelope.iterate_counts_down {k n : Nat} (hk : k < 16) (hn : n ≤ k) :
    Envelope.onQuarterFrameClock^[n] (g.withCounter k) = g.withCounter (k - n) := by
  induction n with
  | zero => rfl
  | succ n ih =>
    obtain ⟨m, hm, hm'⟩ : ∃ m, k - n = m + 1 ∧ k - (n + 1) = m := ⟨_, by omega, rfl⟩
    rw [Function.iterate_succ_apply', ih (by omega), hm, hm',
      Envelope.onQuarterFrameClock_withCounter_succ hstart (by omega)]

/-- From `k`, the clock after the countdown. -/
theorem Envelope.iterate_reloads {k : Nat} (hk : k < 16) :
    Envelope.onQuarterFrameClock^[k + 1] (g.withCounter k) = g.decayStep.withCounter g.V.toNat := by
  rw [Function.iterate_succ_apply', Envelope.iterate_counts_down hstart hk (Nat.le_refl k), Nat.sub_self,
    Envelope.onQuarterFrameClock_withCounter_zero hstart]

end Countdown

/-- Settles O33: `ENV.WR` keeps the counter and the decay counter, so that the ticks count down from where it is and the
one that finds zero loads the new `V`. -/
theorem envWrActsAtTheNextReload : Obligations.EnvWrActsAtTheNextReload := by
  unfold Obligations.EnvWrActsAtTheNextReload
  intro c l cv v s hstart
  obtain ⟨r, hr⟩ := exec_completes (.envWr c l cv v) s
  have henv : (r.ch c).env = ((s.ch c).env.configure l cv v).withCounter (s.counter (.envelope c)) := by
    rw [ch_of_exec hr, channelAfter, if_pos rfl]
    exact (((s.ch c).env.configure l cv v).withCounter_self).symm
  have hstart' : ((s.ch c).env.configure l cv v).startFlag = false := hstart
  have hlt : s.counter (.envelope c) < 16 := (s.ch c).env.div.counter.isLt
  refine ⟨fun n hn => ?quiet, ?reload⟩
  case quiet =>
    obtain ⟨t, ht, henv'⟩ := execTimes_envTick c r n
    rw [henv, Envelope.iterate_counts_down hstart' hlt hn] at henv'
    refine ⟨t, (execAll_cons_of_next hr _).trans ht, ?_, ?_⟩
    · rw [State.counter, henv', Envelope.withCounter_counter_toNat (by omega)]
    · rw [henv']
      rfl
  case reload =>
    obtain ⟨t, ht, henv'⟩ := execTimes_envTick c r (s.counter (.envelope c) + 1)
    rw [henv, Envelope.iterate_reloads hstart' hlt] at henv'
    refine ⟨t, (execAll_cons_of_next hr _).trans ht, ?_, ?_⟩
    · rw [State.counter, henv']
      exact Envelope.withCounter_counter_toNat v.isLt
    · rw [henv']
      exact (Envelope.nextDecay_toNat _).trans (if_congr Nat.pos_iff_ne_zero.symm rfl rfl)

/-! ### From a start -/

/-- The generator right after a tick that found a start pending (R114). -/
def Envelope.restarted (g : Envelope) : Envelope :=
  { g with startFlag := false, div := ⟨g.V⟩, decayLevelCounter := 15 }

theorem execAll_start_envTick (c : Chan) (s : State) (n : Nat) :
    ∃ t, execAll (.envStart c :: .envTick c :: List.replicate n (.envTick c)) s = .next t ∧
      (t.ch c).env = Envelope.onQuarterFrameClock^[n] (s.ch c).env.restarted := by
  obtain ⟨r, hr⟩ := exec_completes (.envStart c) s
  obtain ⟨t, ht, henv⟩ := execTimes_envTick c r (n + 1)
  refine ⟨t, (execAll_cons_of_next hr _).trans ht, ?_⟩
  rw [henv, Function.iterate_succ_apply, ch_of_exec hr, channelAfter, if_pos rfl,
    Envelope.onQuarterFrameClock_of_startFlag _ rfl]
  rfl

/-- Decay steps change the decay counter alone. -/
theorem Envelope.iterate_decayStep_eq (g : Envelope) (q : Nat) :
    Envelope.decayStep^[q] g = { g with decayLevelCounter := (Envelope.decayStep^[q] g).decayLevelCounter } := by
  induction q with
  | zero => rfl
  | succ q ih =>
    rw [Function.iterate_succ_apply', ih]
    rfl

/-- From a reloaded divider, each `V + 1` clocks are one decay step (R120). -/
theorem Envelope.iterate_rounds {g : Envelope} (hstart : g.startFlag = false) (q : Nat) :
    Envelope.onQuarterFrameClock^[(g.V.toNat + 1) * q] (g.withCounter g.V.toNat) =
      (Envelope.decayStep^[q] g).withCounter g.V.toNat := by
  induction q with
  | zero => rfl
  | succ q ih =>
    have hkeep := g.iterate_decayStep_eq q
    have hV : (Envelope.decayStep^[q] g).V = g.V := by rw [hkeep]
    have hs : (Envelope.decayStep^[q] g).startFlag = false := by rw [hkeep]; exact hstart
    rw [Nat.mul_succ, Nat.add_comm, Function.iterate_add_apply, ih, Envelope.iterate_reloads hs g.V.isLt, hV,
      Function.iterate_succ_apply']

/-- After a restart, `n` clocks are `n / (V + 1)` rounds and a countdown of the rest. -/
theorem Envelope.iterate_restarted (g : Envelope) (n : Nat) :
    Envelope.onQuarterFrameClock^[n] g.restarted =
      (Envelope.decayStep^[n / (g.V.toNat + 1)] g.restarted).withCounter (g.V.toNat - n % (g.V.toNat + 1)) := by
  have hmod : n % (g.V.toNat + 1) ≤ g.V.toNat := Nat.le_of_lt_succ (Nat.mod_lt _ (Nat.succ_pos _))
  have hs : (Envelope.decayStep^[n / (g.V.toNat + 1)] g.restarted).startFlag = false := by
    rw [Envelope.iterate_decayStep_eq]
    rfl
  have hself : g.restarted.withCounter g.restarted.V.toNat = g.restarted := g.restarted.withCounter_self
  have hrounds := Envelope.iterate_rounds (g := g.restarted) rfl (n / (g.V.toNat + 1))
  rw [hself] at hrounds
  calc Envelope.onQuarterFrameClock^[n] g.restarted
      = Envelope.onQuarterFrameClock^[n % (g.V.toNat + 1)]
          (Envelope.onQuarterFrameClock^[(g.V.toNat + 1) * (n / (g.V.toNat + 1))] g.restarted) := by
        rw [← Function.iterate_add_apply, Nat.mod_add_div]
    _ = Envelope.onQuarterFrameClock^[n % (g.V.toNat + 1)]
          ((Envelope.decayStep^[n / (g.V.toNat + 1)] g.restarted).withCounter g.V.toNat) := congrArg _ hrounds
    _ = _ := Envelope.iterate_counts_down hs g.V.isLt hmod

/-- Without looping the decay counter stops at 0 (R121). -/
theorem Envelope.decay_of_not_loop {g : Envelope} (hl : g.loopFlag = false) (hd : g.decayLevelCounter = 15) (q : Nat) :
    (Envelope.decayStep^[q] g).decayLevelCounter.toNat = 15 - q := by
  induction q with
  | zero => rw [Function.iterate_zero_apply, hd]; rfl
  | succ q ih =>
    have hl' : (Envelope.decayStep^[q] g).loopFlag = false := by rw [Envelope.iterate_decayStep_eq]; exact hl
    rw [Function.iterate_succ_apply', Envelope.decayStep, Envelope.nextDecay_toNat, ih, hl',
      if_neg Bool.false_ne_true]
    split <;> omega

/-- With looping it repeats every 16 steps (R121). -/
theorem Envelope.decay_of_loop {g : Envelope} (hl : g.loopFlag = true) (hd : g.decayLevelCounter = 15) (q : Nat) :
    (Envelope.decayStep^[q] g).decayLevelCounter.toNat = 15 - q % 16 := by
  induction q with
  | zero => rw [Function.iterate_zero_apply, hd]; rfl
  | succ q ih =>
    have hl' : (Envelope.decayStep^[q] g).loopFlag = true := by rw [Envelope.iterate_decayStep_eq]; exact hl
    rw [Function.iterate_succ_apply', Envelope.decayStep, Envelope.nextDecay_toNat, ih, hl', if_pos rfl]
    split <;> omega

/-- A start, its tick and `n` more: the rounds are in the decay counter, the rest in the divider. -/
theorem execAll_start_rounds (c : Chan) (s : State) (n : Nat) :
    ∃ t, execAll (.envStart c :: .envTick c :: List.replicate n (.envTick c)) s = .next t ∧
      (t.ch c).env.decayLevelCounter =
        (Envelope.decayStep^[n / ((s.ch c).env.V.toNat + 1)] (s.ch c).env.restarted).decayLevelCounter ∧
      t.counter (.envelope c) = (s.ch c).env.V.toNat - n % ((s.ch c).env.V.toNat + 1) := by
  have hlt : (s.ch c).env.V.toNat < 16 := (s.ch c).env.V.isLt
  obtain ⟨t, ht, henv⟩ := execAll_start_envTick c s n
  rw [Envelope.iterate_restarted] at henv
  refine ⟨t, ht, by rw [henv, Envelope.withCounter], ?_⟩
  rw [State.counter, henv, Envelope.withCounter_counter_toNat (by omega)]

/-- Settles O30: the number of rounds is `n / (V + 1)`, and each takes one away from 15 until it is 0. -/
theorem decayStepsEveryPeriodPlusOneToZero : Obligations.DecayStepsEveryPeriodPlusOneToZero := by
  unfold Obligations.DecayStepsEveryPeriodPlusOneToZero
  intro c s n hl
  obtain ⟨t, ht, hdecay, hcounter⟩ := execAll_start_rounds c s n
  have hclosed := Envelope.decay_of_not_loop (g := (s.ch c).env.restarted) hl rfl (n / ((s.ch c).env.V.toNat + 1))
  exact ⟨t, ht, hdecay ▸ hclosed, hcounter⟩

/-- Settles O31: the number of rounds is `n / (V + 1)`, and 16 of them bring the decay counter back to 15. -/
theorem loopingDecayRepeats : Obligations.LoopingDecayRepeats := by
  unfold Obligations.LoopingDecayRepeats
  intro c s n hl
  obtain ⟨t, ht, hdecay, hcounter⟩ := execAll_start_rounds c s n
  have hclosed := Envelope.decay_of_loop (g := (s.ch c).env.restarted) hl rfl (n / ((s.ch c).env.V.toNat + 1))
  exact ⟨t, ht, hdecay ▸ hclosed, hcounter⟩

end Sys2Proof.Machine
end
